-- ==== Sys2Proof/Word.lean ====
section
/-! DEFINITION. The bit-vector types of the bitwise_packable core (spec/00_scope.md R6, R8). -/

namespace Sys2Proof

/-- A storage word, a data operand or response data: `WORD_BITS` = `DATA_BITS` = 64 (R6). -/
abbrev Word := BitVec 64

/-- A size, index or count: `ARG_BITS` = 16 (R6); also the width of `info0` and `info1` (R11). -/
abbrev Arg := BitVec 16

/-- A command header: `HDR_BITS` = 32 (R6). -/
abbrev Header := BitVec 32

end Sys2Proof
end

