-- ==== Sys2Proof/Syntax.lean ====
section
/-! DEFINITION. The commands of the block: one constructor per row of spec/opcode_table.json (30_encoding.md R66). -/

namespace Sys2Proof

/-- A command as it crosses the port: header and data operand, together 96 bits (30_encoding.md R61). -/
structure Command where
  hdr  : Header
  data : Word
  deriving DecidableEq, Repr

/-- A fixed `word_width` (30_encoding.md R64). -/
inductive Width where
  | w8
  | w16
  | w32
  | w64
  deriving DecidableEq, Repr

/-- The command rows of R66. A command that ignores its data operand (R69) carries none. `wsel` of the dynamic rows is
the whole 3-bit selector, 4 to 7, all of one meaning (R64); `ovf` is `overflow_allowed` (R65). -/
inductive Instr where
  /-- NEW (R80): `size` is the bit capacity asked for. -/
  | new (size : Arg)
  /-- SET (R81): bit index `i` and the bit value. -/
  | set (i : Arg) (b : Bool)
  /-- GET (R82): bit index `i`. -/
  | get (i : Arg)
  /-- READW (R83): word index `k`. -/
  | readw (k : Arg)
  /-- WRITEW (R84): word index `k` and the word. -/
  | writew (k : Arg) (d : Word)
  /-- PACK.FIX (R102): width, policy bit, flag count and the flags. -/
  | packFix (w : Width) (ovf : Bool) (n : Arg) (d : Word)
  /-- PACK.DYN (R104): selector, policy bit and flag count. -/
  | packDyn (wsel : BitVec 3) (ovf : Bool) (n : Arg)
  /-- UNPACK.FIX (R103): width, policy bit, expected flag count and the packed value. -/
  | unpackFix (w : Width) (ovf : Bool) (n : Arg) (p : Word)
  /-- UNPACK.DYN (R106): selector, policy bit and expected flag count. -/
  | unpackDyn (wsel : BitVec 3) (ovf : Bool) (n : Arg)
  /-- DPUT (R105): chunk index `k` and the chunk. -/
  | dput (k : Arg) (d : Word)
  /-- DGET (R107): chunk index `k`. -/
  | dget (k : Arg)
  /-- STAT (R130). -/
  | stat
  deriving DecidableEq, Repr

/-- The pseudo-instruction `CLR i` is `SET i, 0` (30_encoding.md R73). -/
abbrev Instr.clr (i : Arg) : Instr := .set i false

end Sys2Proof
end

