-- ==== Sys2Proof/WellFormed.lean ====
section
/-! DEFINITION. Which instruction terms the encoding can express (30_encoding.md R64, R66). -/

namespace Sys2Proof

/-- The dynamic rows need `wsel[2] = 1` (R66 "selected also by"); every other operand's type already is its field's range. -/
def Instr.wellFormed : Instr → Bool
  | .new _ => true
  | .set _ _ => true
  | .get _ => true
  | .readw _ => true
  | .writew _ _ => true
  | .packFix _ _ _ _ => true
  | .packDyn wsel _ _ => wsel.getLsbD 2
  | .unpackFix _ _ _ _ => true
  | .unpackDyn wsel _ _ => wsel.getLsbD 2
  | .dput _ _ => true
  | .dget _ => true
  | .stat => true

end Sys2Proof
end

