-- ==== Sys2Proof/Decode.lean ====
section
/-! DEFINITION. The decoder of 30_encoding.md R71, total on every 96-bit command, the encoder of R72, the masks and
matches of opcode_table.json, and the assembler spelling of R72. -/

namespace Sys2Proof

/-! ## Header fields (R62) -/

/-- `op` = `hdr[3:0]`. -/
def opField (h : Header) : BitVec 4 := h.extractLsb' 0 4

/-- `wsel` = `hdr[6:4]`. -/
def wselField (h : Header) : BitVec 3 := h.extractLsb' 4 3

/-- `ovf` = `hdr[7]`. -/
def ovfField (h : Header) : Bool := h.getLsbD 7

/-- `val` = `hdr[8]`. -/
def valField (h : Header) : Bool := h.getLsbD 8

/-- The reserved field `hdr[15:9]`. -/
def resField (h : Header) : BitVec 7 := h.extractLsb' 9 7

/-- `arg` = `hdr[31:16]`. -/
def argField (h : Header) : Arg := h.extractLsb' 16 16

/-- Why a header is no command. The hardware answers ILLEGAL to each alike (R67, R68; log 14). -/
inductive Illegal where
  /-- `op >= 0xA` (R68). -/
  | reservedOpcode
  /-- A bit of `hdr[15:9]` is 1 (R67). -/
  | reservedBits
  /-- A field the opcode does not use is not 0 (R67). -/
  | unusedField
  deriving DecidableEq, Repr

/-- The width of `wsel[1:0]` (R64). -/
def widthOfSel (sel : BitVec 2) : Width :=
  match sel.toNat with
  | 0 => .w8
  | 1 => .w16
  | 2 => .w32
  | _ => .w64

/-- `wsel[1:0]` of a width (R64). -/
def selOfWidth : Width → BitVec 2
  | .w8 => 0
  | .w16 => 1
  | .w32 => 2
  | .w64 => 3

/-- A command that uses only `arg`: `wsel`, `ovf` and `val` must be 0 (R71). -/
def decodePlain (h : Header) (i : Instr) : Except Illegal Instr :=
  if wselField h ≠ 0 ∨ ovfField h ∨ valField h then .error .unusedField else .ok i

/-- SET uses `val`: `wsel` and `ovf` must be 0 (R71). -/
def decodeSet (h : Header) : Except Illegal Instr :=
  if wselField h ≠ 0 ∨ ovfField h then .error .unusedField else .ok (.set (argField h) (valField h))

/-- PACK: `val` must be 0 and `wsel[2]` selects the row (R71, R100). -/
def decodePack (h : Header) (d : Word) : Except Illegal Instr :=
  if valField h then .error .unusedField
  else if (wselField h).getLsbD 2 then .ok (.packDyn (wselField h) (ovfField h) (argField h))
  else .ok (.packFix (widthOfSel ((wselField h).extractLsb' 0 2)) (ovfField h) (argField h) d)

/-- UNPACK: as PACK (R71, R100). -/
def decodeUnpack (h : Header) (d : Word) : Except Illegal Instr :=
  if valField h then .error .unusedField
  else if (wselField h).getLsbD 2 then .ok (.unpackDyn (wselField h) (ovfField h) (argField h))
  else .ok (.unpackFix (widthOfSel ((wselField h).extractLsb' 0 2)) (ovfField h) (argField h) d)

/-- STAT: `wsel`, `ovf`, `val` and `arg` must be 0 (R71). -/
def decodeStat (h : Header) : Except Illegal Instr :=
  if argField h ≠ 0 then .error .unusedField else decodePlain h .stat

/-- The decode function of R71. The data operand is never checked (R67). -/
def decode (c : Command) : Except Illegal Instr :=
  if 0xA ≤ (opField c.hdr).toNat then .error .reservedOpcode
  else if resField c.hdr ≠ 0 then .error .reservedBits
  else match (opField c.hdr).toNat with
    | 0x0 => decodePlain c.hdr (.new (argField c.hdr))
    | 0x1 => decodeSet c.hdr
    | 0x2 => decodePlain c.hdr (.get (argField c.hdr))
    | 0x3 => decodePlain c.hdr (.readw (argField c.hdr))
    | 0x4 => decodePlain c.hdr (.writew (argField c.hdr) c.data)
    | 0x5 => decodePack c.hdr c.data
    | 0x6 => decodeUnpack c.hdr c.data
    | 0x7 => decodePlain c.hdr (.dput (argField c.hdr) c.data)
    | 0x8 => decodePlain c.hdr (.dget (argField c.hdr))
    | 0x9 => decodeStat c.hdr
    | _ => .error .reservedOpcode

/-! ## The encoder (R62, R66, R72) -/

/-- The header with the given fields, reserved bits 0: `arg << 16 | val << 8 | ovf << 7 | wsel << 4 | op` (R72). -/
def header (op : BitVec 4) (wsel : BitVec 3) (ovf val : Bool) (arg : Arg) : Header :=
  (arg.setWidth 32 <<< 16) ||| ((BitVec.ofBool val).setWidth 32 <<< 8) ||| ((BitVec.ofBool ovf).setWidth 32 <<< 7) |||
    (wsel.setWidth 32 <<< 4) ||| op.setWidth 32

/-- `wsel` of a fixed width: `wsel[2] = 0` (R64). -/
def wselOfWidth (w : Width) : BitVec 3 := (selOfWidth w).setWidth 3

/-- The 96-bit command of an instruction; an unused data operand assembles to 0 (R72). -/
def encode : Instr → Command
  | .new size => ⟨header 0x0 0 false false size, 0⟩
  | .set i b => ⟨header 0x1 0 false b i, 0⟩
  | .get i => ⟨header 0x2 0 false false i, 0⟩
  | .readw k => ⟨header 0x3 0 false false k, 0⟩
  | .writew k d => ⟨header 0x4 0 false false k, d⟩
  | .packFix w ovf n d => ⟨header 0x5 (wselOfWidth w) ovf false n, d⟩
  | .packDyn wsel ovf n => ⟨header 0x5 wsel ovf false n, 0⟩
  | .unpackFix w ovf n p => ⟨header 0x6 (wselOfWidth w) ovf false n, p⟩
  | .unpackDyn wsel ovf n => ⟨header 0x6 wsel ovf false n, 0⟩
  | .dput k d => ⟨header 0x7 0 false false k, d⟩
  | .dget k => ⟨header 0x8 0 false false k, 0⟩
  | .stat => ⟨header 0x9 0 false false 0, 0⟩

/-- The command reads its data operand (R69). -/
def Instr.usesData : Instr → Bool
  | .new _ => false
  | .set _ _ => false
  | .get _ => false
  | .readw _ => false
  | .writew _ _ => true
  | .packFix _ _ _ _ => true
  | .packDyn _ _ _ => false
  | .unpackFix _ _ _ _ => true
  | .unpackDyn _ _ _ => false
  | .dput _ _ => true
  | .dget _ => false
  | .stat => false

/-! ## The opcode table (opcode_table.json, R66) -/

/-- A row's mask and match over the header. -/
structure TableRow where
  mask : Header
  pat  : Header
  deriving DecidableEq, Repr

/-- The header lies in the row. -/
def TableRow.covers (r : TableRow) (h : Header) : Bool := h &&& r.mask == r.pat

/-- The row of an instruction, mask and match as opcode_table.json gives them. -/
def Instr.row : Instr → TableRow
  | .new _ => ⟨0x0000FFFF, 0x00000000⟩
  | .set _ _ => ⟨0x0000FEFF, 0x00000001⟩
  | .get _ => ⟨0x0000FFFF, 0x00000002⟩
  | .readw _ => ⟨0x0000FFFF, 0x00000003⟩
  | .writew _ _ => ⟨0x0000FFFF, 0x00000004⟩
  | .packFix _ _ _ _ => ⟨0x0000FF4F, 0x00000005⟩
  | .packDyn _ _ _ => ⟨0x0000FF4F, 0x00000045⟩
  | .unpackFix _ _ _ _ => ⟨0x0000FF4F, 0x00000006⟩
  | .unpackDyn _ _ _ => ⟨0x0000FF4F, 0x00000046⟩
  | .dput _ _ => ⟨0x0000FFFF, 0x00000007⟩
  | .dget _ => ⟨0x0000FFFF, 0x00000008⟩
  | .stat => ⟨0xFFFFFFFF, 0x00000009⟩

/-- The twelve rows, in the table's order. -/
def tableRows : List TableRow :=
  [⟨0x0000FFFF, 0x00000000⟩, ⟨0x0000FEFF, 0x00000001⟩, ⟨0x0000FFFF, 0x00000002⟩, ⟨0x0000FFFF, 0x00000003⟩,
   ⟨0x0000FFFF, 0x00000004⟩, ⟨0x0000FF4F, 0x00000005⟩] ++
  [⟨0x0000FF4F, 0x00000045⟩, ⟨0x0000FF4F, 0x00000006⟩, ⟨0x0000FF4F, 0x00000046⟩, ⟨0x0000FFFF, 0x00000007⟩,
   ⟨0x0000FFFF, 0x00000008⟩, ⟨0xFFFFFFFF, 0x00000009⟩]

/-! ## Commands as one number -/

/-- The command whose 96-bit word is `w` below bit `nbits` and 0 above: bits `[31:0]` are the header and bits `[95:32]`
the data operand (R61; log 11). -/
def commandOfTableWord (nbits w : Nat) : Command :=
  ⟨BitVec.ofNat 32 (w % 2 ^ nbits), BitVec.ofNat 64 (w % 2 ^ nbits / 2 ^ 32)⟩

/-- The instruction the decoder reads from such a word. -/
def decodeTableWord (nbits w : Nat) : Option Instr :=
  match decode (commandOfTableWord nbits w) with
  | .ok i => some i
  | .error _ => none

/-! ## Assembler spelling (R72) -/

/-- A number in hexadecimal. DESIGN CHOICE (log 18): lower-case digits, no leading zeros; R72 fixes neither. -/
def hexString (n : Nat) : String := "0x" ++ String.ofList (Nat.toDigits 16 n)

/-- The spelling of a fixed width. -/
def Width.asm : Width → String
  | .w8 => "8"
  | .w16 => "16"
  | .w32 => "32"
  | .w64 => "64"

/-- The spelling of a dynamic selector: `auto`, `auto5`, `auto6`, `auto7` (R72). -/
def autoAsm (wsel : BitVec 3) : String :=
  match wsel.toNat with
  | 5 => "auto5"
  | 6 => "auto6"
  | 7 => "auto7"
  | _ => "auto"

/-- A bit operand, 0 or 1. -/
def bitAsm (b : Bool) : String := if b then "1" else "0"

/-- An instruction in the syntax of R72. `SET i, 0` is never printed as `CLR` (R73). DESIGN CHOICE (log 18): `arg` is printed in
decimal and the data operand in hexadecimal; R72 allows either for both. -/
def Instr.asm : Instr → String
  | .new size => "NEW " ++ toString size.toNat
  | .set i b => "SET " ++ toString i.toNat ++ ", " ++ bitAsm b
  | .get i => "GET " ++ toString i.toNat
  | .readw k => "READW " ++ toString k.toNat
  | .writew k d => "WRITEW " ++ toString k.toNat ++ ", " ++ hexString d.toNat
  | .packFix w o n d => "PACK " ++ w.asm ++ ", " ++ toString n.toNat ++ ", " ++ bitAsm o ++ ", " ++ hexString d.toNat
  | .packDyn s o n => "PACK " ++ autoAsm s ++ ", " ++ toString n.toNat ++ ", " ++ bitAsm o
  | .unpackFix w o n d => "UNPACK " ++ w.asm ++ ", " ++ toString n.toNat ++ ", " ++ bitAsm o ++ ", " ++ hexString d.toNat
  | .unpackDyn s o n => "UNPACK " ++ autoAsm s ++ ", " ++ toString n.toNat ++ ", " ++ bitAsm o
  | .dput k d => "DPUT " ++ toString k.toNat ++ ", " ++ hexString d.toNat
  | .dget k => "DGET " ++ toString k.toNat
  | .stat => "STAT"

/-- The disassembler of R72: an illegal header is printed as `.illegal 0x<hdr>`, its digits as `hexString` writes them (DESIGN
CHOICE, log 18). -/
def disassemble (c : Command) : String :=
  match decode c with
  | .ok i => i.asm
  | .error _ => ".illegal " ++ hexString c.hdr.toNat

end Sys2Proof
end

