-- ==== Sys2Proof/Config.lean ====
section
/-! DEFINITION. The implementation parameters of spec/00_scope.md R6 and the values the spec leaves open. -/

namespace Sys2Proof.Config

/-- `WORD_BITS` (R6). -/
abbrev wordBits : Nat := 64

/-- `MAX_WORDS` (R6): the words of the storage array. -/
abbrev maxWords : Nat := 64

/-- `MAX_BITS` = `WORD_BITS * MAX_WORDS` (R6). -/
abbrev maxBits : Nat := 4096

/-- FREE VALUE (R30, R170; 93 I1; log 1): `bfAtReset r k` is what word `k` of `BF` holds after reset number `r`. -/
opaque bfAtReset : Nat → Nat → Word

/-- FREE VALUE (R6 `LATENCY`, R178; 93 I3; log 5): the cycles from acceptance to response of the command `hdr`, `data` accepted
as number `m` while `WC` = `wc` and `DN` = `dn`, so it may differ for every command, operand and flag count. It is finite
because it is a number. -/
opaque latency (m : Nat) (hdr : Header) (data : Word) (wc : BitVec 7) (dn : BitVec 16) : Nat

/-- FREE VALUE (R6 `HOST_BYTE_ORDER`; 93 I4; log 15): which byte of a 64-bit datum (0 the least significant) the
host keeps at offset `b` of its own memory. The block never reads it. -/
opaque hostByteLane : Fin 8 → Fin 8

end Sys2Proof.Config
end

