-- ==== Sys2Proof/Machine/Operands.lean ====
section
/-! DEFINITION. Operand arithmetic: widths, masks, index decomposition and chunks (spec/00_scope.md R9, R12; 20_memory.md
R41; 30_encoding.md R64). Counts are exact natural numbers (R9). -/

namespace Sys2Proof.Machine

/-- `width(wsel)` of a fixed width (R9, R64). -/
def widthBits : Width → Nat
  | .w8 => 8
  | .w16 => 16
  | .w32 => 32
  | .w64 => 64

/-- `ceil_div(a, b)` (R9). -/
def ceilDiv (a b : Nat) : Nat := (a + b - 1) / b

/-- `lowmask(m)`: bits `0..m-1` are 1 (R9). -/
def lowmask (m : Nat) : Word := BitVec.ofNat 64 (2 ^ m - 1)

/-- The word a bit index names (R41). -/
def wordIndex (i : Nat) : Nat := i / Config.wordBits

/-- The bit of its word a bit index names (R41). -/
def bitIndex (i : Nat) : Nat := i % Config.wordBits

/-- `clamp(DN - 64*k, 0, 64)` (R105, R107): how many flags of chunk `k` lie below `dn`. Natural subtraction is the clamp at 0. -/
def chunkFlags (dn k : Nat) : Nat := min (dn - Config.wordBits * k) Config.wordBits

/-- The words that hold `n` bits. -/
def wordsFor (n : Nat) : Nat := ceilDiv n Config.wordBits

/-- `w` with bit `j` replaced by `b` (R10 `BitWrite`, R81). -/
def insertBit (w : Word) (j : Nat) (b : Bool) : Word :=
  (w &&& ~~~(1#64 <<< j)) ||| ((BitVec.ofBool b).setWidth 64 <<< j)

/-- Bit `j` of `w` as a 64-bit value, 0 or 1 (R82). -/
def bitWord (w : Word) (j : Nat) : Word := (BitVec.ofBool (w.getLsbD j)).setWidth 64

/-- The word whose bit `j` is `f j`, over the low `m` bits. -/
def packBits (f : Nat → Bool) : Nat → Word
  | 0 => 0
  | m + 1 => insertBit (packBits f m) m (f m)

end Sys2Proof.Machine
end

