-- ==== Sys2Proof/Machine/State.lean ====
section
/-! DEFINITION. The state of the block as plain data (spec/10_state.md), what stops a step, and the state after reset. -/

namespace Sys2Proof.Machine

/-- The status codes the block produces (60_exceptions.md R141). -/
inductive Status where
  | ok
  | overflow
  | indexOutOfRange
  | capacity
  | illegal
  deriving DecidableEq, Repr

/-- A response (30_encoding.md R70). -/
structure Response where
  status : Status
  data   : Word
  info0  : Arg
  info1  : Arg
  deriving DecidableEq, Repr

/-- What the host does at the port, one entry an event (70_reset_and_hazards.md R179; log 6). -/
inductive HostInput where
  /-- Offers a command and holds it until it transfers (R174). -/
  | send (c : Command)
  /-- Takes the response the block owes (R174). -/
  | take
  /-- Asserts `rst` at one edge (R170). -/
  | reset
  /-- Does nothing. -/
  | idle
  deriving DecidableEq, Repr

/-- The storage array: 64 words of 64 bits (R22; log 2). -/
abbrev Storage := Vector Word Config.maxWords

/-- The state of R20, the response being held (R174), and the model's own fields. -/
structure State where
  /-- `BF` (R22). -/
  bf       : Storage
  /-- `WC` (R23). -/
  wc       : BitVec 7
  /-- `DN` (R23, R28). -/
  dn       : BitVec 16
  /-- `busy` (R29). -/
  busy     : Bool
  /-- The response owed or offered, none when no command is in progress (R174; log 8). -/
  rsp      : Option Response
  /-- MODEL: cycles of LATENCY still to pass before the response is offered (log 5). -/
  wait     : Nat
  /-- MODEL: commands accepted so far, an argument of `Config.latency` (log 5). -/
  accepted : Nat
  /-- MODEL: resets so far, the argument of `Config.bfAtReset` (log 1). -/
  resets   : Nat
  /-- MODEL: what the host does next, first entry first (log 6). -/
  inputs   : List HostInput
  /-- MODEL: the responses taken, oldest first (R180; log 9). -/
  taken    : List Response
  deriving DecidableEq, Repr

/-- What stops the machine. Errors of commands are responses (R140), not faults. -/
inductive Fault where
  /-- Raised by the five commands that check an index against WC, and by DGET, when WC lets through a word index of 64
  or more, which `BF` does not have. Only a state with WC > 64 can raise it, and no run reaches one (R23, R24). Safe (log 3). -/
  | storageOverrun
  deriving DecidableEq, Repr

/-- Why an instruction has no meaning. -/
inductive Refusal where
  /-- Raised by an arm of `exec` whose instruction is not modelled; no arm is. Safe. -/
  | notModelled (mnemonic : String)
  deriving DecidableEq, Repr

/-- What a step or a meaning answers. -/
abbrev Result := Host.Outcome State Fault Refusal

/-- `BF` as reset number `r` leaves it: every word a draw (R30, R170; log 1). Irreducible, so that no
proof unfolds 64 words by accident. -/
@[irreducible] def Storage.drawn (r : Nat) : Storage := Vector.ofFn fun k => Config.bfAtReset r k.val

/-- The state right after the first reset (R30); the model's own fields start empty (log 12). -/
def State.reset : State where
  bf       := Storage.drawn 0
  wc       := 0
  dn       := 0
  busy     := false
  rsp      := none
  wait     := 0
  accepted := 0
  resets   := 1
  inputs   := []
  taken    := []

end Sys2Proof.Machine
end

