-- ==== Sys2Proof/Machine/Flags.lean ====
section
/-! DEFINITION. The block has no flags (spec/10_state.md R26); what takes their place is the status of a response: its code
(60_exceptions.md R141) and the conditions that decide it (R142). -/

namespace Sys2Proof.Machine

/-- `rsp_status[3:0]` (R141). -/
def Status.code : Status → BitVec 4
  | .ok => 0
  | .overflow => 1
  | .indexOutOfRange => 2
  | .capacity => 3
  | .illegal => 4

/-- `overflows(n, cap, ovf)` (41_codec.md R101). -/
def overflows (n cap : Nat) (ovf : Bool) : Bool := cap < n && !ovf

/-- The capacity check (20_memory.md R42): word `k` lies at or beyond WC. -/
def outOfRange (s : State) (k : Nat) : Bool := s.wc.toNat ≤ k

/-- NEW's bound (40_bitfield.md R80). -/
def overCapacity (size : Nat) : Bool := Config.maxBits < size

end Sys2Proof.Machine
end

