-- ==== Sys2Proof/Machine/Ops.lean ====
section
/-! DEFINITION. The named operations over the storage, the registers and the response that every command is built from.
The block's exceptions are error responses (spec/60_exceptions.md R140): `raise` is the one operation that takes one, and
there is no return from it (R147). -/

namespace Sys2Proof.Machine

/-! ## Storage (00_scope.md R10) -/

/-- `BF[k]`, none where the array has no word `k`. -/
def readWord (s : State) (k : Nat) : Option Word := s.bf[k]?

/-- `BF[k] <- v`. -/
def writeWord (k : Nat) (v : Word) (s : State) : State := { s with bf := s.bf.setIfInBounds k v }

/-- `BF[i / 64][i % 64]`, false where the array has no such word (used in statements; a command reads after its check). -/
def readBit (s : State) (i : Nat) : Bool := ((readWord s (wordIndex i)).getD 0).getLsbD (bitIndex i)

/-- `for k in 0..63: BF[k] <- 0` (R80, R104). -/
def clearStorage (s : State) : State := { s with bf := Vector.replicate Config.maxWords 0 }

/-! ## Registers -/

/-- `WC <- v`. -/
def writeWC (v : Nat) (s : State) : State := { s with wc := BitVec.ofNat 7 v }

/-- `DN <- v`. -/
def writeDN (v : Nat) (s : State) : State := { s with dn := BitVec.ofNat 16 v }

/-- WC zero-extended to response data. -/
def wcData (s : State) : Word := s.wc.setWidth 64

/-- WC zero-extended to an information field (60_exceptions.md R142; log 13). -/
def wcInfo (s : State) : Arg := s.wc.setWidth 16

/-- The storage's capacity in bits, `64 * WC` (41_codec.md R101). -/
def capacityBits (s : State) : Nat := Config.wordBits * s.wc.toNat

/-! ## Responses (00_scope.md R11, 30_encoding.md R70) -/

/-- `respond(status, rdata, info0, info1)`. -/
def respond (st : Status) (d : Word) (i0 i1 : Arg) (s : State) : State := { s with rsp := some ⟨st, d, i0, i1⟩ }

/-- `respond OK(rdata)`: information fields 0. -/
def respondOK (d : Word) (s : State) : Result := .next (respond .ok d 0 0 s)

/-- `raise <Error>(info0, info1)`: data 0 and no other change of state (R11, R143). -/
def raise (st : Status) (i0 i1 : Arg) (s : State) : Result := .next (respond st 0 i0 i1 s)

/-! ## Results in sequence -/

/-- Goes on from a next state; a stop stays a stop. -/
def andThen (r : Result) (f : State → Result) : Result :=
  match r with
  | .next t => f t
  | .fault e => .fault e
  | .refused e => .refused e

/-- A result with its next state changed by `f`. -/
def mapNext (f : State → State) (r : Result) : Result := andThen r fun t => .next (f t)

/-! ## Checks -/

/-- Goes on with word `k` of the storage after the capacity check of R42; `info` is the index the error records (R142). -/
def withWord (info : Arg) (k : Nat) (s : State) (go : Word → Result) : Result :=
  if outOfRange s k then raise .indexOutOfRange info (wcInfo s) s
  else match readWord s k with
    | some w => go w
    | none => .fault .storageOverrun

/-- Goes on after the overflow check of R101. -/
def withCapacity (n : Arg) (cap : Nat) (ovf : Bool) (s : State) (go : Result) : Result :=
  if overflows n.toNat cap ovf then raise .overflow n (BitVec.ofNat 16 cap) s else go

/-- Clears the storage and sets WC to the words that hold `bits` bits (R80, R104). -/
def allocate (bits : Nat) (s : State) : State := writeWC (wordsFor bits) (clearStorage s)

/-! ## Reset (70_reset_and_hazards.md R170, R171) -/

/-- The reset transition: WC, DN and busy to 0, a fresh draw of `BF`, and a response not yet taken withdrawn. -/
def resetBlock (s : State) : State :=
  { s with
    bf := Storage.drawn s.resets, wc := 0, dn := 0, busy := false, rsp := none, wait := 0, resets := s.resets + 1 }

end Sys2Proof.Machine
end

