-- ==== Sys2Proof/Machine/Bitfield.lean ====
section
/-! DEFINITION. The bitfield storage commands (spec/40_bitfield.md R80 to R84). -/

namespace Sys2Proof.Machine

/-- NEW (R80). -/
def execNew (size : Arg) (s : State) : Result :=
  if overCapacity size.toNat then raise .capacity size (BitVec.ofNat 16 Config.maxBits) s
  else
    let t := allocate size.toNat s
    respondOK (wcData t) t

/-- SET (R81). -/
def execSet (i : Arg) (b : Bool) (s : State) : Result :=
  withWord i (wordIndex i.toNat) s fun w =>
    respondOK 0 (writeWord (wordIndex i.toNat) (insertBit w (bitIndex i.toNat) b) s)

/-- GET (R82). It raises INDEX_OUT_OF_RANGE as R82 and the table of 60_exceptions.md R142 say; one sentence of R142 says otherwise
(DEDUCED, log 20). -/
def execGet (i : Arg) (s : State) : Result :=
  withWord i (wordIndex i.toNat) s fun w => respondOK (bitWord w (bitIndex i.toNat)) s

/-- READW (R83). It raises INDEX_OUT_OF_RANGE as R83 and the table of 60_exceptions.md R142 say; one sentence of R142 says
otherwise (DEDUCED, log 20). -/
def execReadw (k : Arg) (s : State) : Result :=
  withWord k k.toNat s fun w => respondOK w s

/-- WRITEW (R84): all 64 bits, nothing masked. -/
def execWritew (k : Arg) (d : Word) (s : State) : Result :=
  withWord k k.toNat s fun _ => respondOK 0 (writeWord k.toNat d s)

end Sys2Proof.Machine
end

