-- ==== Sys2Proof/Machine/Codec.lean ====
section
/-! DEFINITION. The flag codec commands (spec/41_codec.md R102 to R107). -/

namespace Sys2Proof.Machine

/-- The fixed-width codec, one function in both directions (R102, R103): the low `min(n, W)` bits of the datum. -/
def fixedCodec (w : Width) (ovf : Bool) (n : Arg) (d : Word) (s : State) : Result :=
  withCapacity n (widthBits w) ovf s (respondOK (d &&& lowmask (min n.toNat (widthBits w))) s)

/-- PACK.FIX (R102). -/
def execPackFix (w : Width) (ovf : Bool) (n : Arg) (d : Word) (s : State) : Result := fixedCodec w ovf n d s

/-- UNPACK.FIX (R103). -/
def execUnpackFix (w : Width) (ovf : Bool) (n : Arg) (p : Word) (s : State) : Result := fixedCodec w ovf n p s

/-- PACK.DYN (R104); the selector has no effect (R64). -/
def execPackDyn (_wsel : BitVec 3) (ovf : Bool) (n : Arg) (s : State) : Result :=
  withCapacity n Config.maxBits ovf s
    (let ne := min n.toNat Config.maxBits
     let t := writeDN ne (allocate ne s)
     respondOK (wcData t) t)

/-- DPUT (R105): the chunk masked to the flags below DN. -/
def execDput (k : Arg) (d : Word) (s : State) : Result :=
  withWord k k.toNat s fun _ =>
    respondOK 0 (writeWord k.toNat (d &&& lowmask (chunkFlags s.dn.toNat k.toNat)) s)

/-- UNPACK.DYN (R106): DN takes the whole count, even beyond the capacity; the selector has no effect (R64). -/
def execUnpackDyn (_wsel : BitVec 3) (ovf : Bool) (n : Arg) (s : State) : Result :=
  withCapacity n (capacityBits s) ovf s
    (respondOK (BitVec.ofNat 64 (wordsFor n.toNat)) (writeDN n.toNat s))

/-- DGET (R107): never an error; a chunk at or beyond WC is 0. -/
def execDget (k : Arg) (s : State) : Result :=
  if outOfRange s k.toNat then respondOK 0 s
  else match readWord s k.toNat with
    | some w => respondOK (w &&& lowmask (chunkFlags s.dn.toNat k.toNat)) s
    | none => .fault .storageOverrun

end Sys2Proof.Machine
end

