-- ==== Sys2Proof/Machine/StatusRead.lean ====
section
/-! DEFINITION. STAT and the answer to an illegal header (spec/42_status.md R130, R131). -/

namespace Sys2Proof.Machine

/-- What STAT reads: WC in `[6:0]`, DN in `[31:16]`, 0 elsewhere (R130). -/
def statWord (s : State) : Word := (s.dn.setWidth 64 <<< 16) ||| s.wc.setWidth 64

/-- STAT (R130). -/
def execStat (s : State) : Result := respondOK (statWord s) s

/-- ILLEGAL (R131): the header's two halves are the information fields. -/
def raiseIllegal (h : Header) (s : State) : Result :=
  raise .illegal (h.extractLsb' 0 16) (h.extractLsb' 16 16) s

end Sys2Proof.Machine
end

