-- ==== Sys2Proof/Machine/Dispatch.lean ====
section
/-! DEFINITION. One arm per command row of spec/30_encoding.md R66. -/

namespace Sys2Proof.Machine

def exec (i : Instr) (s : State) : Host.Outcome State Fault Refusal :=
  match i with
  | .new size => Sys2Proof.Machine.execNew size s
  | .set ix b => Sys2Proof.Machine.execSet ix b s
  | .get ix => Sys2Proof.Machine.execGet ix s
  | .readw k => Sys2Proof.Machine.execReadw k s
  | .writew k d => Sys2Proof.Machine.execWritew k d s
  | .packFix w ovf n d => Sys2Proof.Machine.execPackFix w ovf n d s
  | .packDyn wsel ovf n => Sys2Proof.Machine.execPackDyn wsel ovf n s
  | .unpackFix w ovf n p => Sys2Proof.Machine.execUnpackFix w ovf n p s
  | .unpackDyn wsel ovf n => Sys2Proof.Machine.execUnpackDyn wsel ovf n s
  | .dput k d => Sys2Proof.Machine.execDput k d s
  | .dget k => Sys2Proof.Machine.execDget k s
  | .stat => Sys2Proof.Machine.execStat s

end Sys2Proof.Machine
end

