-- ==== Sys2Proof/Machine/Port.lean ====
section
/-! DEFINITION. The command and response port (spec/30_encoding.md R60; 70_reset_and_hazards.md R170 to R175), at two
levels: `handshake` is one event of the handshake, with the LATENCY cycles inside it, and `clockEdge` is one rising edge
of `clk`. -/

namespace Sys2Proof.Machine

/-- A command performed on the state, answered in `rsp`: the step of 00_scope.md R14. ILLEGAL comes before every other
check (60_exceptions.md R144). -/
def perform (c : Command) (s : State) : Result :=
  match decode c with
  | .ok i => exec i s
  | .error _ => raiseIllegal c.hdr s

/-- Commands performed one after another and their responses in order: the fold of R14 and R175; none where the machine
stops. -/
def performAll : List Command → State → Option (State × List Response)
  | [], s => some (s, [])
  | c :: cs, s =>
    match perform c s with
    | .next t =>
      match t.rsp with
      | some r => (performAll cs { t with rsp := none }).map fun q => (q.1, r :: q.2)
      | none => none
    | .fault _ => none
    | .refused _ => none

/-- The block accepts a command (R174): it is busy, and the response follows after `lat` cycles. The command is performed
at once, which no observation can tell from later (R174 "no later than"; log 4). -/
def accept (c : Command) (lat : Nat) (s : State) : Result :=
  perform c { s with busy := true, wait := lat, accepted := s.accepted + 1 }

/-- The response is taken (R174): it joins the observation and the block is idle. With no command in progress nothing
transfers (log 7). -/
def takeResponse (s : State) : State :=
  match s.busy, s.rsp with
  | true, some r => { s with busy := false, rsp := none, wait := 0, taken := s.taken ++ [r] }
  | _, _ => s

/-- One event of the handshake, the first of the host's inputs; with none the block holds its state (60_exceptions.md
R154). A command offered while the block is busy stays offered (R29, R174). -/
def handshake (s : State) : Result :=
  match s.inputs with
  | [] => .next s
  | .idle :: rest => .next { s with inputs := rest }
  | .reset :: rest => .next (resetBlock { s with inputs := rest })
  | .take :: rest => .next (takeResponse { s with inputs := rest })
  | .send c :: rest => if s.busy then .next s else accept c 0 { s with inputs := rest }

/-! ## Clock edges -/

/-- The input pins sampled at an edge (R60). -/
structure InPins where
  rst      : Bool
  cmdValid : Bool
  cmd      : Command
  rspReady : Bool
  deriving DecidableEq, Repr

/-- The output pins (R60). -/
structure OutPins where
  cmdReady : Bool
  rspValid : Bool
  /-- The response lines while `rsp_valid` = 1; the spec gives them no value otherwise (log 8). -/
  rsp      : Option Response
  deriving DecidableEq, Repr

/-- `rsp_valid` (R171, R174): the latency has passed and the response is offered; 0 while `rst` = 1. -/
def rspValid (rst : Bool) (s : State) : Bool := !rst && s.busy && s.wait == 0

/-- The output pins (R60, R171): while `rst` = 1 neither channel is open. -/
def outPins (rst : Bool) (s : State) : OutPins where
  cmdReady := !rst && !s.busy
  rspValid := rspValid rst s
  rsp := if rspValid rst s then s.rsp else none

/-- The LATENCY of `c` if it is accepted in `s` (R178; log 5). -/
def latencyOf (c : Command) (s : State) : Nat := Config.latency s.accepted c.hdr c.data s.wc s.dn

/-- One rising edge of `clk` with the pins `p` (R170, R174). The host's list of inputs takes no part. -/
def clockEdge (p : InPins) (s : State) : Result :=
  if p.rst then .next (resetBlock s)
  else if s.busy then
    if s.wait = 0 then .next (if p.rspReady then takeResponse s else s)
    else .next { s with wait := s.wait - 1 }
  else if p.cmdValid then accept p.cmd (latencyOf p.cmd s) s
  else .next s

/-- Several edges in turn, stopping at a fault or refusal. -/
def clockEdges : List InPins → State → Result
  | [], s => .next s
  | p :: ps, s => andThen (clockEdge p s) (clockEdges ps)

/-- The host offers a command. -/
def InPins.offer (c : Command) : InPins := ⟨false, true, c, false⟩

/-- The host is ready for a response and offers nothing. -/
def InPins.ready : InPins := ⟨false, false, ⟨0, 0⟩, true⟩

/-! ## Placing a command -/

/-- The block idle and `c` the host's next offer (log 10). -/
def offerNext (c : Command) (s : State) : State :=
  { s with busy := false, rsp := none, wait := 0, inputs := .send c :: s.inputs }

end Sys2Proof.Machine
end

