-- ==== Sys2Proof/Machine/Step.lean ====
section
/-! DEFINITION. One step of the machine is one event of the handshake (spec/00_scope.md R14; log 6). -/

namespace Sys2Proof.Machine

/-- One step: see `handshake`. -/
def step : State → Host.Outcome State Fault Refusal := fun s => handshake s

/-- `s` with the command of the word `w` (96 bits, those from `nbits` up 0) offered next, so that the next step runs it. -/
def State.withFetchWord (s : State) (nbits w : Nat) : State := offerNext (commandOfTableWord nbits w) s

end Sys2Proof.Machine
end

