-- ==== Sys2Proof/Machine/Procedures.lean ====
section
/-! DEFINITION. The host's side of spec/41_codec.md: flag sequences in chunks (00_scope.md R12), and the host procedures pack
and unpack of R112 as dialogues with the block that end at the first error. -/

namespace Sys2Proof.Machine

/-! ## A dialogue with the block -/

/-- Why a host procedure gives no output (R112). -/
inductive HostFailure where
  /-- The block answered an error; its response is kept, the output is discarded (R112, 70_reset_and_hazards.md R177 item 5). -/
  | errorResponse (r : Response)
  /-- A size or count above 65535, which no command can carry and the host must not truncate (30_encoding.md R63, R177 item 1);
  that the procedure then fails and sends nothing is log 19. -/
  | unsendable (n : Nat)
  /-- The block was busy with another command, or stopped (log 3). -/
  | noResponse
  deriving DecidableEq, Repr

/-- What a host does: ends, or sends a command and goes on according to its response. -/
inductive Proc (α : Type) where
  | done (a : α)
  | fail (e : HostFailure)
  | send (c : Command) (next : Response → Proc α)

/-- The host sends `c` and takes its response, with no other host between (70_reset_and_hazards.md R174, R177 item 4): two
events of the handshake. None where no response was taken. -/
def exchange (c : Command) (s : State) : Option (Response × State) :=
  match andThen (handshake { s with inputs := [.send c, .take] }) handshake with
  | .next t => t.taken[s.taken.length]?.map fun r => (r, t)
  | .fault _ => none
  | .refused _ => none

/-- A host procedure run on the block: its output or failure, and the state it leaves. -/
def Proc.run {α : Type} : Proc α → State → Except HostFailure α × State
  | .done a, s => (.ok a, s)
  | .fail e, s => (.error e, s)
  | .send c next, s =>
    match exchange c s with
    | some (r, t) => (next r).run t
    | none => (.error .noResponse, s)

/-- Sends `c` and goes on only if it succeeded: "Any error response ends the procedure" (R112). -/
def sendOk {α : Type} (c : Command) (next : Response → Proc α) : Proc α :=
  .send c fun r => if r.status = .ok then next r else .fail (.errorResponse r)

/-- Sends the commands in order, each only if the one before succeeded, and goes on with their responses. -/
def sendAll {α : Type} : List Command → (List Response → Proc α) → Proc α
  | [], next => next []
  | c :: cs, next => sendOk c fun r => sendAll cs fun rs => next (r :: rs)

/-- Goes on with the number as an `arg`, if a command can carry it (30_encoding.md R63; log 19). -/
def withArg {α : Type} (n : Nat) (next : Arg → Proc α) : Proc α :=
  if n < 65536 then next (BitVec.ofNat 16 n) else .fail (.unsendable n)

/-! ## Flags in chunks (R12) -/

/-- Flag `i` of a sequence, false beyond its end. -/
def flagAt (f : List Bool) (i : Nat) : Bool := f.getD i false

/-- Chunk `k`: flag `64k + j` in bit `j`, missing flags 0 (R12). -/
def chunkOf (f : List Bool) (k : Nat) : Word := packBits (fun j => flagAt f (64 * k + j)) 64

/-- `[c[i/64][i%64] for i < n]` (R112). -/
def flagsOf (n : Nat) (c : List Word) : List Bool :=
  (List.range n).map fun i => (c.getD (i / 64) 0).getLsbD (i % 64)

/-! ## The commands of the loops. Their indices stay below the bound given, at most 4096 in SET and 1024 elsewhere, so none is
truncated into `arg` (log 19). -/

/-- PACK auto, n, o. -/
def packAuto (o : Bool) (n : Arg) : Command := encode (.packDyn 4 o n)

/-- DPUT k for every chunk below `m`. -/
def putChunks (f : List Bool) (m : Nat) : List Command :=
  (List.range m).map fun k => encode (.dput (BitVec.ofNat 16 k) (chunkOf f k))

/-- SET i, f[i] for every `i < m` (R108). -/
def setFlags (f : List Bool) (m : Nat) : List Command :=
  (List.range m).map fun i => encode (.set (BitVec.ofNat 16 i) (flagAt f i))

/-- READW k for every `k < m`. -/
def readWords (m : Nat) : List Command := (List.range m).map fun k => encode (.readw (BitVec.ofNat 16 k))

/-- WRITEW k, w[k] for every word of `w`. -/
def putWords (w : List Word) : List Command :=
  (List.range w.length).map fun k => encode (.writew (BitVec.ofNat 16 k) (w.getD k 0))

/-- DGET k for every `k < m`. -/
def getChunks (m : Nat) : List Command := (List.range m).map fun k => encode (.dget (BitVec.ofNat 16 k))

/-! ## pack and unpack (R112) -/

/-- The policy's `word_width` (00_scope.md R7). -/
inductive WordWidth where
  | fixed (w : Width)
  | auto
  | unrecognised
  deriving DecidableEq, Repr

/-- What is packed: a `W`-bit integer under a fixed width, a word sequence otherwise (00_scope.md R7). -/
abbrev Packed : WordWidth → Type
  | .fixed w => BitVec (widthBits w)
  | .auto => List Word
  | .unrecognised => List Word

/-- `pack(f, (W, o))`: one command; flags from 64 up are not sent, and `r.data[W-1:0]` is the result. -/
def packFixed (w : Width) (f : List Bool) (o : Bool) : Proc (BitVec (widthBits w)) :=
  withArg f.length fun n =>
    sendOk (encode (.packFix w o n (chunkOf f 0))) fun r => .done (r.data.setWidth (widthBits w))

/-- `pack(f, (auto, o))`: `m` is what PACK answers. -/
def packDynamic (f : List Bool) (o : Bool) : Proc (List Word) :=
  withArg f.length fun n =>
    sendOk (packAuto o n) fun r =>
      sendAll (putChunks f r.data.toNat) fun _ =>
        sendAll (readWords r.data.toNat) fun rs => .done (rs.map (·.data))

/-- `pack(f, (width, o))`. -/
def pack (f : List Bool) : (width : WordWidth) → (o : Bool) → Proc (Packed width)
  | .fixed w, o => packFixed w f o
  | .auto, o => packDynamic f o
  | .unrecognised, o => packDynamic f o

/-- `unpack(p, n, (W, o))`: one command; `[r.data[i] for i < min(n, 64)]`, then false. -/
def unpackFixed (w : Width) (p : BitVec (widthBits w)) (n : Nat) (o : Bool) : Proc (List Bool) :=
  withArg n fun a =>
    sendOk (encode (.unpackFix w o a (p.setWidth 64))) fun r =>
      .done ((List.range (min n 64)).map r.data.getLsbD ++ List.replicate (n - 64) false)

/-- `unpack(w, n, (auto, o))`: the chunks are as many as UNPACK answers. -/
def unpackDynamic (w : List Word) (n : Nat) (o : Bool) : Proc (List Bool) :=
  withArg n fun a =>
    withArg (64 * w.length) fun size =>
      sendOk (encode (.new size)) fun _ =>
        sendAll (putWords w) fun _ =>
          sendOk (encode (.unpackDyn 4 o a)) fun r =>
            sendAll (getChunks r.data.toNat) fun rs => .done (flagsOf n (rs.map (·.data)))

/-- `unpack(p, n, (width, o))`. -/
def unpack : (width : WordWidth) → (p : Packed width) → (n : Nat) → (o : Bool) → Proc (List Bool)
  | .fixed w, p, n, o => unpackFixed w p n o
  | .auto, p, n, o => unpackDynamic p n o
  | .unrecognised, p, n, o => unpackDynamic p n o

/-! ## Runs and the host's memory -/

/-- The host sends each command and takes its response before the next (70_reset_and_hazards.md R175, R180). -/
def script (cs : List Command) : List HostInput := cs.flatMap fun c => [.send c, .take]

/-- A 64-bit datum in the host's memory, in the host's own byte order (20_memory.md R43; log 15). -/
def hostBytes (d : Word) : List (BitVec 8) :=
  (List.finRange 8).map fun b => d.extractLsb' (8 * (Config.hostByteLane b).val) 8

end Sys2Proof.Machine
end

