-- ==== Sys2Proof/Safety.lean ====
section
/-! DEFINITION. The terms the statements use: the invariant, what a command may leave alone, and what can be observed. -/

namespace Sys2Proof.Machine

/-- What holds of every state a run reaches: WC is legal (spec/10_state.md R23, R24), the block owes a response exactly
while it is busy (R29, 70_reset_and_hazards.md R174), and no latency runs while it is idle. -/
structure State.Inv (s : State) : Prop where
  wc_le    : s.wc.toNat ≤ Config.maxWords
  rsp_busy : s.rsp.isSome = s.busy
  idle     : s.busy = false → s.wait = 0

/-- `BF`, `WC` and `DN` are as before: all the state an error leaves alone (60_exceptions.md R143). -/
def State.SameBlock (s t : State) : Prop := t.bf = s.bf ∧ t.wc = s.wc ∧ t.dn = s.dn

/-- The port's side is as before but for the response: what every meaning leaves alone. -/
def State.SamePort (s t : State) : Prop :=
  t.busy = s.busy ∧ t.wait = s.wait ∧ t.accepted = s.accepted ∧ t.resets = s.resets ∧ t.inputs = s.inputs ∧
    t.taken = s.taken

/-- The two states differ at most in what cannot be observed: the words at or above WC (10_state.md R31,
70_reset_and_hazards.md R180), how many resets there were, and the model's latency fields. -/
def State.ObsEq (s t : State) : Prop :=
  t.wc = s.wc ∧ t.dn = s.dn ∧ t.busy = s.busy ∧ t.rsp = s.rsp ∧ t.inputs = s.inputs ∧ t.taken = s.taken ∧
    ∀ k < s.wc.toNat, readWord t k = readWord s k

/-- A successful response carrying `d` (30_encoding.md R70). -/
def Response.okay (d : Word) : Response := ⟨.ok, d, 0, 0⟩

/-- An error response (30_encoding.md R70). -/
def Response.error (st : Status) (i0 i1 : Arg) : Response := ⟨st, 0, i0, i1⟩

/-- `k` steps of the machine, as the host's interface runs it. -/
def runSteps (k : Nat) (s : State) : Result := Host.Core.run Sys2Proof.core k s

/-- The machine performs the commands `cs`, their responses all taken, and arrives at `t` (R175, R180). -/
def Runs (cs : List Command) (s t : State) : Prop :=
  runSteps (2 * cs.length) { s with inputs := script cs } = .next t

/-- The responses taken between `s` and a later `t`. -/
def newResponses (s t : State) : List Response := t.taken.drop s.taken.length

/-- Every response reports success. -/
def AllOk (rs : List Response) : Prop := ∀ r ∈ rs, r.status = .ok

/-- A result with the host's list of inputs put back to `l`. -/
def restoreInputs (l : List HostInput) (r : Result) : Result := mapNext (fun t => { t with inputs := l }) r

/-- A step that stops the machine is unsafe; no state with `Inv` has one. -/
def Stops (r : Result) : Prop := ∀ t, r ≠ .next t

end Sys2Proof.Machine
end

