-- ==== Sys2Proof/Certificates/Slice0/Obligations.lean ====
section
/-! DEFINITION. The statements for the provers. Each docstring names the rule of spec/ it formalises; a statement marked
derived rests on the sections OBLIGATIONS.json lists. -/

open Sys2Proof Sys2Proof.Machine

/-! ## Encoding (30_encoding.md) -/

/-- Decoding an encoded well-formed instruction gives it back, with every operand at every value (derived). -/
def Obligations.DecodeOfEncodeIsIdentity : Prop :=
  ∀ i : Instr, i.wellFormed = true → decode (encode i) = .ok i

/-- A command that decodes is, header bit for header bit, the encoding of what it decodes to; the data operand comes back
where the instruction uses it and is 0 elsewhere (derived). -/
def Obligations.EncodeOfDecodeRestoresCommand : Prop :=
  ∀ (c : Command) (i : Instr), decode c = .ok i →
    i.wellFormed = true ∧ (encode i).hdr = c.hdr ∧ (encode i).data = if i.usesData then c.data else 0

/-- Every header lies in exactly one row of the table, and then decodes to that row's instruction, or in none, and then is
illegal; all 2^32 headers with `op >= 0xA` are illegal (derived: R66, R68, R71). -/
def Obligations.HeaderIsInOneRowOrIllegal : Prop :=
  ∀ c : Command,
    (∀ i, decode c = .ok i →
      i.row ∈ tableRows ∧ i.row.covers c.hdr = true ∧ ∀ r ∈ tableRows, r.covers c.hdr = true → r = i.row) ∧
    ((∃ e, decode c = .error e) ↔ ∀ r ∈ tableRows, r.covers c.hdr = false) ∧
    (10 ≤ (c.hdr.extractLsb' 0 4).toNat → ∃ e, decode c = .error e)

/-- Words written out from the spec's encodings decode to the instructions they stand for (derived: R66, R72; the words are
those of 95_test_vectors.md). -/
def Obligations.SpecWordsDecode : Prop :=
  decode ⟨0x00800000, 0⟩ = .ok (.new 128) ∧
  decode ⟨0x00400101, 0xFFFFFFFFFFFFFFFF⟩ = .ok (.set 64 true) ∧
  decode ⟨0x00030004, 0x8000000000000000⟩ = .ok (.writew 3 0x8000000000000000) ∧
  decode ⟨0x000300B5, 7⟩ = .ok (.packFix .w64 true 3 7) ∧
  decode ⟨0x001000E6, 0⟩ = .ok (.unpackDyn 6 true 16) ∧
  decode ⟨0x00000009, 0⟩ = .ok .stat ∧
  decode ⟨0x00400181, 0⟩ = .error .unusedField ∧
  decode ⟨0x00000809, 0⟩ = .error .reservedBits ∧
  decode ⟨0x1234000F, 0⟩ = .error .reservedOpcode

/-- R64: the selector's eight codes; 4 to 7 act alike. -/
def Obligations.WidthSelectorChoosesRepresentation : Prop :=
  (∀ (sel : BitVec 2) (ovf : Bool) (n : Arg) (d : Word),
    widthBits (widthOfSel sel) = 8 <<< sel.toNat ∧
    decode ⟨header 5 (sel.setWidth 3) ovf false n, d⟩ = .ok (.packFix (widthOfSel sel) ovf n d) ∧
    decode ⟨header 6 (sel.setWidth 3) ovf false n, d⟩ = .ok (.unpackFix (widthOfSel sel) ovf n d)) ∧
  (∀ (wsel : BitVec 3) (ovf : Bool) (n : Arg) (d : Word), 4 ≤ wsel.toNat →
    decode ⟨header 5 wsel ovf false n, d⟩ = .ok (.packDyn wsel ovf n) ∧
    decode ⟨header 6 wsel ovf false n, d⟩ = .ok (.unpackDyn wsel ovf n) ∧
    ∀ s : State, exec (.packDyn wsel ovf n) s = exec (.packDyn 4 ovf n) s ∧
      exec (.unpackDyn wsel ovf n) s = exec (.unpackDyn 4 ovf n) s)

/-- A command that does not use its data operand is the same command whatever the operand (derived: R69). -/
def Obligations.UnusedDataHasNoEffect : Prop :=
  ∀ (h : Header) (d d' : Word) (s : State),
    (∀ i, decode ⟨h, d⟩ = .ok i → i.usesData = false) → perform ⟨h, d⟩ s = perform ⟨h, d'⟩ s

/-! ## The step and the handshake (70_reset_and_hazards.md) -/

/-- A step of an idle block whose host offers a command that decodes runs exactly that instruction, the offer consumed, the
block busy and one more command counted (derived: 00_scope.md R14, R174). -/
def Obligations.StepRunsDecodedCommand : Prop :=
  ∀ (s : State) (c : Command) (rest : List HostInput) (i : Instr),
    s.busy = false → s.inputs = .send c :: rest → decode c = .ok i →
    step s = exec i { s with inputs := rest, busy := true, wait := 0, accepted := s.accepted + 1 }

/-- The word placed by `withFetchWord` is what the next step runs (derived; the layout is log 10 and log 11). -/
def Obligations.FetchWordRunsNext : Prop :=
  ∀ (s : State) (nbits w : Nat) (i : Instr), decodeTableWord nbits w = some i →
    step (s.withFetchWord nbits w) =
      exec i { s with busy := true, rsp := none, wait := 0, accepted := s.accepted + 1 }

/-- R131: a header in no row of the table is answered ILLEGAL with its two halves, whatever the data, with `BF`, `WC` and `DN` as
they were; a SET with `ovf` = 1 is one, a dynamic selector 5 to 7 is not; and the block then takes the next command. -/
def Obligations.IllegalHeaderIsAnsweredIllegal : Prop :=
  (∀ (c : Command) (s : State), (∀ r ∈ tableRows, r.covers c.hdr = false) →
    perform c s = .next { s with
      rsp := some (Response.error .illegal (c.hdr.extractLsb' 0 16) (c.hdr.extractLsb' 16 16)) }) ∧
  (∀ (s : State) (c : Command) (rest : List HostInput),
    s.busy = false → s.inputs = .send c :: .take :: rest → (∀ r ∈ tableRows, r.covers c.hdr = false) →
    ∃ t u, step s = .next t ∧ step t = .next u ∧ t.SameBlock s ∧ u.SameBlock s ∧
      t.rsp = some (Response.error .illegal (c.hdr.extractLsb' 0 16) (c.hdr.extractLsb' 16 16)) ∧
      u.busy = false ∧ u.inputs = rest) ∧
  (∀ i : Arg, ∀ b : Bool, ∀ r ∈ tableRows, r.covers (header 1 0 true b i) = false) ∧
  (∀ (wsel : BitVec 3) (ovf : Bool) (n : Arg), 5 ≤ wsel.toNat →
    (∃ r ∈ tableRows, r.covers (header 5 wsel ovf false n) = true) ∧
    (∃ r ∈ tableRows, r.covers (header 6 wsel ovf false n) = true))

/-- R29: `busy` runs from the acceptance of a command to the taking of its response, meanwhile no command is accepted, it is
false after reset, and it changes no `BF`, `WC` or `DN`. -/
def Obligations.BusyFromAcceptanceToTaking : Prop :=
  (∀ (s t : State) (c : Command) (rest : List HostInput),
    s.busy = false → s.inputs = .send c :: rest → step s = .next t → t.busy = true) ∧
  (∀ (s : State) (c : Command) (rest : List HostInput),
    s.busy = true → s.inputs = .send c :: rest → step s = .next s) ∧
  (∀ (s : State) (r : Response) (rest : List HostInput),
    s.busy = true → s.rsp = some r → s.inputs = .take :: rest →
    step s = .next { s with busy := false, rsp := none, wait := 0, taken := s.taken ++ [r], inputs := rest }) ∧
  (∀ s t : State, s.busy = true → step s = .next t → t.busy = false →
    ∃ rest, s.inputs = .take :: rest ∨ s.inputs = .reset :: rest) ∧
  (∀ s : State, (resetBlock s).busy = false) ∧ State.reset.busy = false

/-- R171: reset abandons the command in progress. No response for it is taken or stays offered, nothing offered is accepted, and
what the abandoned command did cannot be told. -/
def Obligations.ResetAbandonsCommandInProgress : Prop :=
  (∀ (p : InPins) (s : State), p.rst = true →
    ∃ t, clockEdge p s = .next t ∧ t.rsp = none ∧ t.busy = false ∧ t.taken = s.taken ∧ t.accepted = s.accepted) ∧
  (∀ s : State, (outPins true s).cmdReady = false ∧ (outPins true s).rspValid = false) ∧
  (∀ s s' : State, s'.inputs = s.inputs → s'.taken = s.taken → State.ObsEq (resetBlock s) (resetBlock s'))

/-- Reset, by a step or at an edge, puts the values of the reset table: `WC` = `DN` = 0, `busy` false, no response, and every word
of `BF` a draw, whatever that is; `State.reset` has them too (derived: 10_state.md R30, R170; that the model counts its
resets to name the draw is log 1). -/
def Obligations.ResetPutsResetValues : Prop :=
  (∀ (s : State) (rest : List HostInput), s.inputs = .reset :: rest →
    ∃ t, step s = .next t ∧ t.wc = 0 ∧ t.dn = 0 ∧ t.busy = false ∧ t.rsp = none ∧ t.inputs = rest ∧
      t.taken = s.taken ∧ ∀ k < 64, readWord t k = some (Config.bfAtReset s.resets k)) ∧
  (∀ (p : InPins) (s : State), p.rst = true →
    ∃ t, clockEdge p s = .next t ∧ t.wc = 0 ∧ t.dn = 0 ∧ t.busy = false ∧ t.rsp = none ∧
      ∀ k < 64, readWord t k = some (Config.bfAtReset s.resets k)) ∧
  (State.reset.wc = 0 ∧ State.reset.dn = 0 ∧ State.reset.busy = false ∧ State.reset.rsp = none ∧
    ∀ k < 64, readWord State.reset k = some (Config.bfAtReset 0 k))

/-- Nothing but an accepted command or a reset changes `BF`, `WC` or `DN`. For steps this is 00_scope.md R14 and 60_exceptions.md
R154 (derived). For clock edges it rests on the model's choice that a command's writes land at its acceptance (DESIGN CHOICE,
log 4): R174 lets them land at any later cycle up to the one its response is first offered in. -/
def Obligations.OnlyCommandsAndResetChangeState : Prop :=
  (∀ s t : State, step s = .next t → ¬ t.SameBlock s →
    (∃ rest, s.inputs = .reset :: rest) ∨ (s.busy = false ∧ ∃ c rest, s.inputs = .send c :: rest)) ∧
  (∀ (p : InPins) (s t : State), clockEdge p s = .next t → ¬ t.SameBlock s →
    p.rst = true ∨ (s.busy = false ∧ p.cmdValid = true))

/-! ## Bitfield storage commands (40_bitfield.md) -/

/-- R80: NEW. -/
def Obligations.NewAllocatesZeroedWords : Prop :=
  ∀ (size : Arg) (s : State),
    (∀ d, decode ⟨header 0 0 false false size, d⟩ = .ok (.new size)) ∧
    (size.toNat ≤ 4096 →
      ∃ t, exec (.new size) s = .next t ∧ t.wc.toNat = (size.toNat + 63) / 64 ∧
        (∀ k < 64, readWord t k = some 0) ∧ t.dn = s.dn ∧
        t.rsp = some (Response.okay (BitVec.ofNat 64 ((size.toNat + 63) / 64))) ∧ t.SamePort s) ∧
    (4096 < size.toNat →
      exec (.new size) s = .next { s with rsp := some (Response.error .capacity size 4096) })

/-- R81: SET. The statement covers every one of the 4096 bits, so it is the frame as well. -/
def Obligations.SetWritesOneBit : Prop :=
  ∀ (i : Arg) (b : Bool) (s : State),
    (∀ d, decode ⟨header 1 0 false b i, d⟩ = .ok (.set i b)) ∧
    (i.toNat / 64 < s.wc.toNat → s.wc.toNat ≤ 64 →
      ∃ t, exec (.set i b) s = .next t ∧
        (∀ j < 4096, readBit t j = if j = i.toNat then b else readBit s j) ∧
        t.wc = s.wc ∧ t.dn = s.dn ∧ t.rsp = some (Response.okay 0) ∧ t.SamePort s) ∧
    (s.wc.toNat ≤ i.toNat / 64 →
      exec (.set i b) s =
        .next { s with rsp := some (Response.error .indexOutOfRange i (BitVec.ofNat 16 s.wc.toNat)) })

/-- R82: GET. Nothing changes but the response. That it raises INDEX_OUT_OF_RANGE is R82's own pseudocode; a sentence of R142 says
otherwise (log 20). -/
def Obligations.GetReadsOneBit : Prop :=
  ∀ (i : Arg) (s : State),
    (∀ d, decode ⟨header 2 0 false false i, d⟩ = .ok (.get i)) ∧
    (i.toNat / 64 < s.wc.toNat → s.wc.toNat ≤ 64 →
      ∃ w, readWord s (i.toNat / 64) = some w ∧
        exec (.get i) s =
          .next { s with rsp := some (Response.okay (if w.getLsbD (i.toNat % 64) then 1 else 0)) }) ∧
    (s.wc.toNat ≤ i.toNat / 64 →
      exec (.get i) s =
        .next { s with rsp := some (Response.error .indexOutOfRange i (BitVec.ofNat 16 s.wc.toNat)) })

/-- R83: READW. Nothing changes but the response. That it raises INDEX_OUT_OF_RANGE is R83's own pseudocode; a sentence of R142 says
otherwise (log 20). -/
def Obligations.ReadwReadsOneWord : Prop :=
  ∀ (k : Arg) (s : State),
    (∀ d, decode ⟨header 3 0 false false k, d⟩ = .ok (.readw k)) ∧
    (k.toNat < s.wc.toNat → s.wc.toNat ≤ 64 →
      ∃ w, readWord s k.toNat = some w ∧
        exec (.readw k) s = .next { s with rsp := some (Response.okay w) }) ∧
    (s.wc.toNat ≤ k.toNat →
      exec (.readw k) s =
        .next { s with rsp := some (Response.error .indexOutOfRange k (BitVec.ofNat 16 s.wc.toNat)) })

/-- R84: WRITEW. -/
def Obligations.WritewWritesOneWord : Prop :=
  ∀ (k : Arg) (d : Word) (s : State),
    decode ⟨header 4 0 false false k, d⟩ = .ok (.writew k d) ∧
    (k.toNat < s.wc.toNat → s.wc.toNat ≤ 64 →
      ∃ t, exec (.writew k d) s = .next t ∧
        (∀ j, readWord t j = if j = k.toNat then some d else readWord s j) ∧
        t.wc = s.wc ∧ t.dn = s.dn ∧ t.rsp = some (Response.okay 0) ∧ t.SamePort s) ∧
    (s.wc.toNat ≤ k.toNat →
      exec (.writew k d) s =
        .next { s with rsp := some (Response.error .indexOutOfRange k (BitVec.ofNat 16 s.wc.toNat)) })

/-! ## Flag codec commands (41_codec.md) -/

/-- R102: PACK.FIX. Bit `j` of the answer is flag `j` for `j < min(n, W)` and 0 above; nothing changes but the response. -/
def Obligations.PackFixAnswersMaskedFlags : Prop :=
  ∀ (sel : BitVec 2) (w : Width) (ovf : Bool) (n : Arg) (d : Word) (s : State), w = widthOfSel sel →
    decode ⟨header 5 (sel.setWidth 3) ovf false n, d⟩ = .ok (.packFix w ovf n d) ∧
    widthBits w = 8 <<< sel.toNat ∧
    (n.toNat ≤ widthBits w ∨ ovf = true →
      ∃ r, exec (.packFix w ovf n d) s = .next { s with rsp := some (Response.okay r) } ∧
        ∀ j < 64, r.getLsbD j = (decide (j < n.toNat) && decide (j < widthBits w) && d.getLsbD j)) ∧
    (widthBits w < n.toNat → ovf = false →
      exec (.packFix w ovf n d) s =
        .next { s with rsp := some (Response.error .overflow n (BitVec.ofNat 16 (widthBits w))) })

/-- R103: UNPACK.FIX. Bit `j` of the answer is flag `j`; bits of the operand at or above `min(n, W)` count for nothing; nothing
changes but the response. The last clause, that the two directions compute one function, is an inference R103 marks
`[derived: from rule R102 and this rule]` (so derived). -/
def Obligations.UnpackFixAnswersMaskedFlags : Prop :=
  ∀ (sel : BitVec 2) (w : Width) (ovf : Bool) (n : Arg) (p : Word) (s : State), w = widthOfSel sel →
    decode ⟨header 6 (sel.setWidth 3) ovf false n, p⟩ = .ok (.unpackFix w ovf n p) ∧
    widthBits w = 8 <<< sel.toNat ∧
    (n.toNat ≤ widthBits w ∨ ovf = true →
      ∃ r, exec (.unpackFix w ovf n p) s = .next { s with rsp := some (Response.okay r) } ∧
        ∀ j < 64, r.getLsbD j = (decide (j < n.toNat) && decide (j < widthBits w) && p.getLsbD j)) ∧
    (widthBits w < n.toNat → ovf = false →
      exec (.unpackFix w ovf n p) s =
        .next { s with rsp := some (Response.error .overflow n (BitVec.ofNat 16 (widthBits w))) }) ∧
    exec (.unpackFix w ovf n p) s = exec (.packFix w ovf n p) s

/-- R104: PACK.DYN. -/
def Obligations.PackDynAllocatesForFlagCount : Prop :=
  ∀ (wsel : BitVec 3) (ovf : Bool) (n : Arg) (s : State),
    (4 ≤ wsel.toNat → ∀ d, decode ⟨header 5 wsel ovf false n, d⟩ = .ok (.packDyn wsel ovf n)) ∧
    (n.toNat ≤ 4096 ∨ ovf = true →
      ∃ t, exec (.packDyn wsel ovf n) s = .next t ∧ t.dn.toNat = min n.toNat 4096 ∧
        t.wc.toNat = (min n.toNat 4096 + 63) / 64 ∧ (∀ k < 64, readWord t k = some 0) ∧
        t.rsp = some (Response.okay (BitVec.ofNat 64 ((min n.toNat 4096 + 63) / 64))) ∧ t.SamePort s) ∧
    (4096 < n.toNat → ovf = false →
      exec (.packDyn wsel ovf n) s = .next { s with rsp := some (Response.error .overflow n 4096) })

/-- R105: DPUT. Bit `j` of the word written is flag `64k + j` where that lies below `DN`, and 0 elsewhere. -/
def Obligations.DputWritesMaskedChunk : Prop :=
  ∀ (k : Arg) (d : Word) (s : State),
    decode ⟨header 7 0 false false k, d⟩ = .ok (.dput k d) ∧
    (k.toNat < s.wc.toNat → s.wc.toNat ≤ 64 →
      ∃ t v, exec (.dput k d) s = .next t ∧
        (∀ j, readWord t j = if j = k.toNat then some v else readWord s j) ∧
        (∀ j < 64, v.getLsbD j = (decide (64 * k.toNat + j < s.dn.toNat) && d.getLsbD j)) ∧
        t.wc = s.wc ∧ t.dn = s.dn ∧ t.rsp = some (Response.okay 0) ∧ t.SamePort s) ∧
    (s.wc.toNat ≤ k.toNat →
      exec (.dput k d) s =
        .next { s with rsp := some (Response.error .indexOutOfRange k (BitVec.ofNat 16 s.wc.toNat)) })

/-- R106: UNPACK.DYN. Only `DN` is written, with the whole count. -/
def Obligations.UnpackDynSetsFlagCount : Prop :=
  ∀ (wsel : BitVec 3) (ovf : Bool) (n : Arg) (s : State),
    (4 ≤ wsel.toNat → ∀ d, decode ⟨header 6 wsel ovf false n, d⟩ = .ok (.unpackDyn wsel ovf n)) ∧
    (n.toNat ≤ 64 * s.wc.toNat ∨ ovf = true →
      exec (.unpackDyn wsel ovf n) s =
        .next { s with dn := n, rsp := some (Response.okay (BitVec.ofNat 64 ((n.toNat + 63) / 64))) }) ∧
    (64 * s.wc.toNat < n.toNat → ovf = false →
      exec (.unpackDyn wsel ovf n) s =
        .next { s with rsp := some (Response.error .overflow n (BitVec.ofNat 16 (64 * s.wc.toNat))) })

/-- R107: DGET. Never an error; nothing changes but the response. -/
def Obligations.DgetReadsMaskedChunk : Prop :=
  ∀ (k : Arg) (s : State),
    (∀ d, decode ⟨header 8 0 false false k, d⟩ = .ok (.dget k)) ∧
    (k.toNat < s.wc.toNat → s.wc.toNat ≤ 64 →
      ∃ w r, readWord s k.toNat = some w ∧
        exec (.dget k) s = .next { s with rsp := some (Response.okay r) } ∧
        ∀ j < 64, r.getLsbD j = (decide (64 * k.toNat + j < s.dn.toNat) && w.getLsbD j)) ∧
    (s.wc.toNat ≤ k.toNat → exec (.dget k) s = .next { s with rsp := some (Response.okay 0) })

/-! ## STAT (42_status.md) -/

/-- R130: STAT. Nothing changes but the response. -/
def Obligations.StatReadsBothRegisters : Prop :=
  (∀ (h : Header) (d : Word), decode ⟨h, d⟩ = .ok .stat ↔ h = 0x00000009) ∧
  ∀ s : State, ∃ r : Word, exec .stat s = .next { s with rsp := some (Response.okay r) } ∧
    r.extractLsb' 0 7 = s.wc ∧ r.extractLsb' 7 9 = 0 ∧ r.extractLsb' 16 16 = s.dn ∧ r.extractLsb' 32 32 = 0

/-! ## Whole-machine rules -/

/-- Every instruction completes in every state with a legal `WC`, with a response (derived: 00_scope.md R14, R70). -/
def Obligations.EveryInstructionCompletes : Prop :=
  ∀ (i : Instr) (s : State), s.wc.toNat ≤ 64 → ∃ t, exec i s = .next t ∧ t.rsp.isSome = true ∧ t.SamePort s

/-- The model's one fault: one of the six commands that name a word, with a word index of 64 or more that an illegal `WC` lets
through, which no word of `BF` answers to; there it stops, and nothing else does. It is the model's choice (log 3), and no state
with `WC <= 64` raises it (derived: 10_state.md R23). -/
def Obligations.AccessBeyondArrayStops : Prop :=
  (∀ (i : Instr) (s : State) (e : Fault), exec i s = .fault e → e = .storageOverrun ∧ ∃ k : Nat,
    64 ≤ k ∧ k < s.wc.toNat ∧
      ((∃ ix b, i = .set ix b ∧ k = ix.toNat / 64) ∨ (∃ ix, i = .get ix ∧ k = ix.toNat / 64) ∨
        (∃ a, i = .readw a ∧ k = a.toNat) ∨ (∃ a d, i = .writew a d ∧ k = a.toNat) ∨
        (∃ a d, i = .dput a d ∧ k = a.toNat) ∨ ∃ a, i = .dget a ∧ k = a.toNat)) ∧
  (∀ (i : Arg) (b : Bool) (s : State), 64 ≤ i.toNat / 64 → i.toNat / 64 < s.wc.toNat →
    exec (.set i b) s = .fault .storageOverrun ∧ exec (.get i) s = .fault .storageOverrun) ∧
  (∀ (k : Arg) (d : Word) (s : State), 64 ≤ k.toNat → k.toNat < s.wc.toNat →
    exec (.readw k) s = .fault .storageOverrun ∧ exec (.writew k d) s = .fault .storageOverrun ∧
      exec (.dput k d) s = .fault .storageOverrun ∧ exec (.dget k) s = .fault .storageOverrun)

/-- The registers' writers: `WC` only by NEW and PACK.DYN, `DN` only by PACK.DYN and UNPACK.DYN, `BF` only by NEW, SET, WRITEW,
PACK.DYN and DPUT (derived: 10_state.md R22, R23). -/
def Obligations.OnlyNamedCommandsWriteRegisters : Prop :=
  ∀ (i : Instr) (s t : State), exec i s = .next t →
    (t.wc ≠ s.wc → (∃ size, i = .new size) ∨ ∃ q o n, i = .packDyn q o n) ∧
    (t.dn ≠ s.dn → (∃ q o n, i = .packDyn q o n) ∨ ∃ q o n, i = .unpackDyn q o n) ∧
    (t.bf ≠ s.bf → (∃ size, i = .new size) ∨ (∃ ix b, i = .set ix b) ∨ (∃ k d, i = .writew k d) ∨
      (∃ q o n, i = .packDyn q o n) ∨ ∃ k d, i = .dput k d)

/-- R88 (an inference the spec marks `[derived: …]`): no SET, GET, READW or WRITEW changes `WC`; only NEW and PACK.DYN do, among
all that can be performed. -/
def Obligations.CapacityIsFixedBetweenAllocations : Prop :=
  ∀ (c : Command) (s t : State), perform c s = .next t → t.wc ≠ s.wc →
    (∃ size, decode c = .ok (.new size)) ∨ ∃ q o n, decode c = .ok (.packDyn q o n)

/-- R143: a command that answers an error writes nothing. -/
def Obligations.ErrorsWriteNothing : Prop :=
  ∀ (c : Command) (s t : State) (r : Response),
    perform c s = .next t → t.rsp = some r → r.status ≠ .ok → t.SameBlock s

/-- R70 in part: every command answers one response; on success the information fields are 0, on an error the data is (derived). -/
def Obligations.ResponseIsResultOrErrorInfo : Prop :=
  ∀ (c : Command) (s t : State), perform c s = .next t →
    ∃ r, t.rsp = some r ∧ (r.status = .ok → r.info0 = 0 ∧ r.info1 = 0) ∧ (r.status ≠ .ok → r.data = 0)

/-- R144: exactly one status a command. It is ILLEGAL for an illegal header and for nothing else; a legal one has its own single
error condition, or none. -/
def Obligations.OneErrorConditionPerCommand : Prop :=
  ∀ (c : Command) (s t : State), perform c s = .next t → ∃ r, t.rsp = some r ∧
    match decode c with
    | .error _ => r.status = .illegal
    | .ok (.new _) => r.status = .ok ∨ r.status = .capacity
    | .ok (.packFix _ _ _ _) => r.status = .ok ∨ r.status = .overflow
    | .ok (.packDyn _ _ _) => r.status = .ok ∨ r.status = .overflow
    | .ok (.unpackFix _ _ _ _) => r.status = .ok ∨ r.status = .overflow
    | .ok (.unpackDyn _ _ _) => r.status = .ok ∨ r.status = .overflow
    | .ok (.set _ _) => r.status = .ok ∨ r.status = .indexOutOfRange
    | .ok (.get _) => r.status = .ok ∨ r.status = .indexOutOfRange
    | .ok (.readw _) => r.status = .ok ∨ r.status = .indexOutOfRange
    | .ok (.writew _ _) => r.status = .ok ∨ r.status = .indexOutOfRange
    | .ok (.dput _ _) => r.status = .ok ∨ r.status = .indexOutOfRange
    | .ok (.dget _) => r.status = .ok
    | .ok .stat => r.status = .ok

/-- R141: the five codes, and none from 5 to 15. -/
def Obligations.StatusCodesAreFive : Prop :=
  Status.ok.code = 0 ∧ Status.overflow.code = 1 ∧ Status.indexOutOfRange.code = 2 ∧ Status.capacity.code = 3 ∧
    Status.illegal.code = 4 ∧ ∀ st : Status, st.code.toNat < 5

/-- R47: the six reads change no state and repeat themselves; every write is idempotent, response included; a SET writes only
its target word. -/
def Obligations.ReadsArePureAndWritesIdempotent : Prop :=
  (∀ (i : Instr) (s t : State),
    ((∃ ix, i = .get ix) ∨ (∃ k, i = .readw k) ∨ (∃ k, i = .dget k) ∨ i = .stat ∨
      (∃ w o n d, i = .packFix w o n d) ∨ ∃ w o n p, i = .unpackFix w o n p) →
    exec i s = .next t → t.SameBlock s) ∧
  (∀ (i : Instr) (s t : State), exec i s = .next t → exec i t = .next t) ∧
  (∀ (ix : Arg) (b : Bool) (s t : State) (k : Nat), exec (.set ix b) s = .next t → k ≠ ix.toNat / 64 →
    readWord t k = readWord s k)

/-- R86 (an inference the spec marks `[derived: …]`): SET twice is SET once, and writing the value a bit holds changes no state;
the same for WRITEW. -/
def Obligations.RewritingSameValueChangesNothing : Prop :=
  (∀ (i : Arg) (b : Bool) (s t : State), exec (.set i b) s = .next t →
    (∃ u, exec (.set i b) t = .next u ∧ u.SameBlock t) ∧ (readBit s i.toNat = b → t.SameBlock s)) ∧
  (∀ (k : Arg) (d : Word) (s t : State), exec (.writew k d) s = .next t →
    (∃ u, exec (.writew k d) t = .next u ∧ u.SameBlock t) ∧ (readWord s k.toNat = some d → t.SameBlock s))

/-- R85 (an inference the spec marks `[derived: …]`): GET after SET. -/
def Obligations.GetAfterSet : Prop :=
  ∀ (s : State) (i : Arg) (b : Bool), s.wc.toNat ≤ 64 → i.toNat / 64 < s.wc.toNat →
    ∃ t u, exec (.set i b) s = .next t ∧ exec (.get i) t = .next u ∧
      u.rsp = some (Response.okay (if b then 1 else 0)) ∧
      ∀ j : Arg, j ≠ i → ∃ v v', exec (.get j) s = .next v ∧ exec (.get j) t = .next v' ∧ v'.rsp = v.rsp

/-- R109 (an inference the spec marks `[derived: …]`): the fixed round trip, in its three cases. -/
def Obligations.FixedRoundTrip : Prop :=
  ∀ (w : Width) (o : Bool) (n : Arg) (d : Word) (s : State),
    (n.toNat ≤ widthBits w ∨ o = true →
      ∃ p t q u, exec (.packFix w o n d) s = .next t ∧ t.rsp = some (Response.okay p) ∧
        exec (.unpackFix w o n p) t = .next u ∧ u.rsp = some (Response.okay q) ∧
        ∀ j < 64, q.getLsbD j = (decide (j < n.toNat) && decide (j < widthBits w) && d.getLsbD j)) ∧
    (widthBits w < n.toNat → o = false →
      ∀ p : Word, ∃ t u, exec (.packFix w o n d) s = .next t ∧ exec (.unpackFix w o n p) s = .next u ∧
        t.rsp = some (Response.error .overflow n (BitVec.ofNat 16 (widthBits w))) ∧ u.rsp = t.rsp)

/-- R111 (an inference the spec marks `[derived: …]`): the overflow check is the same in both directions, and what was packed
never overflows when unpacked with its count. -/
def Obligations.OverflowCheckIsSymmetric : Prop :=
  (∀ (w : Width) (o : Bool) (n : Arg) (d p : Word) (s : State),
    (∃ t r, exec (.packFix w o n d) s = .next t ∧ t.rsp = some r ∧ r.status = .overflow) ↔
    (∃ t r, exec (.unpackFix w o n p) s = .next t ∧ t.rsp = some r ∧ r.status = .overflow)) ∧
  (∀ (q q' : BitVec 3) (o o' : Bool) (n : Arg) (s t : State), n.toNat ≤ 4096 → exec (.packDyn q o n) s = .next t →
    ∀ u : State, u.wc = t.wc →
      ∃ v r, exec (.unpackDyn q' o' n) u = .next v ∧ v.rsp = some r ∧ r.status = .ok)

/-! ## Invariants and observation -/

/-- The invariant holds after reset (derived: 10_state.md R24, R30). -/
def Obligations.ResetStateHasInvariant : Prop := State.reset.Inv

/-- Every step keeps the invariant: `WC <= 64`, and a response is owed exactly while the block is busy (derived: 10_state.md R24,
R29, R174). -/
def Obligations.StepKeepsInvariant : Prop :=
  ∀ s t : State, s.Inv → step s = .next t → t.Inv

/-- Every clock edge keeps it, whatever the host does at the pins (derived: 10_state.md R24, R174). -/
def Obligations.ClockEdgeKeepsInvariant : Prop :=
  ∀ (p : InPins) (s t : State), s.Inv → clockEdge p s = .next t → t.Inv

/-- A state with the invariant never stops, at either level (derived: 00_scope.md R14 "total", 60_exceptions.md R140). -/
def Obligations.InvariantStatesNeverStop : Prop :=
  ∀ s : State, s.Inv → ¬ Stops (step s) ∧ ∀ p : InPins, ¬ Stops (clockEdge p s)

/-- One step cannot tell apart two states that differ only in what 10_state.md R31 calls unobservable (derived). -/
def Obligations.StepRespectsObservation : Prop :=
  ∀ s s' t : State, s.Inv → State.ObsEq s s' → step s = .next t → ∃ t', step s' = .next t' ∧ State.ObsEq t t'

/-- R31 (an inference the spec marks `[derived: …]`): the contents `BF` has after reset are unobservable. Whatever words stand
in it, every run, of any length and with any inputs, takes the same responses and ends in states equal up to the words at or
above `WC`. -/
def Obligations.ResetContentsAreUnobservable : Prop :=
  ∀ (k : Nat) (s : State) (words : Storage), s.Inv → s.wc = 0 →
    ∃ t t' : State, runSteps k s = .next t ∧
      runSteps k { s with bf := words } = .next t' ∧
      t'.taken = t.taken ∧ State.ObsEq t t'

/-! ## The handshake and the clock -/

/-- R175 (an inference the spec marks `[derived: …]`): the responses of a run are the fold of the command-level step over the
commands, one each and in order, and the state ends as the fold ends. -/
def Obligations.ResponsesAreFoldOfCommands : Prop :=
  ∀ (cs : List Command) (s : State), s.Inv → s.busy = false →
    ∃ t u rs, Runs cs s t ∧ performAll cs s = some (u, rs) ∧ rs.length = cs.length ∧
      newResponses s t = rs ∧ t.SameBlock u ∧ t.busy = false ∧ t.inputs = []

/-- The clock-level handshake refines the command-level step: whatever the latency and whatever else the host does at the pins
meanwhile, an idle block that is offered a command, and later lets its response be taken, does what two steps do (derived: R174,
R175, 00_scope.md R15). -/
def Obligations.ClockEdgesRefineSteps : Prop :=
  ∀ (s : State) (first last : InPins) (mid : List InPins),
    s.busy = false → first.rst = false → first.cmdValid = true →
    mid.length = latencyOf first.cmd s → (∀ p ∈ mid, p.rst = false) →
    last.rst = false → last.rspReady = true →
    clockEdges (first :: (mid ++ [last])) s =
      restoreInputs s.inputs
        (runSteps 2 { s with inputs := [.send first.cmd, .take] })

/-- R15: every accepted command produces its response after finitely many cycles, whatever the host does short of reset, and the
response is the command's own. -/
def Obligations.EveryAcceptedCommandIsAnswered : Prop :=
  ∀ (s : State) (first : InPins), s.Inv → s.busy = false → first.rst = false → first.cmdValid = true →
    ∃ (k : Nat) (r : Response) (u : State), perform first.cmd s = .next u ∧ u.rsp = some r ∧
      ∀ mid : List InPins, mid.length = k → (∀ p ∈ mid, p.rst = false) →
        ∃ t, clockEdges (first :: mid) s = .next t ∧ outPins false t = ⟨false, true, some r⟩

/-- An offered response is held unchanged while the host does not take it, and taking it makes the block ready; a block that is not
busy is ready from the first edge without reset (derived: R173, R174). -/
def Obligations.OfferedResponseIsHeldUntilTaken : Prop :=
  (∀ (p : InPins) (s : State), p.rst = false → p.rspReady = false → (outPins false s).rspValid = true →
    clockEdge p s = .next s) ∧
  (∀ (p : InPins) (s : State) (r : Response), p.rst = false → p.rspReady = true →
    outPins false s = ⟨false, true, some r⟩ →
    ∃ t, clockEdge p s = .next t ∧ outPins false t = ⟨true, false, none⟩ ∧ t.taken = s.taken ++ [r]) ∧
  (∀ s : State, outPins false (resetBlock s) = ⟨true, false, none⟩)

/-! ## Host procedures (41_codec.md) -/

/-- R108 (an inference the spec marks `[derived: …]`): after a dynamic pack is started, writing the flags one SET at a time or
one DPUT a chunk leaves the same `BF`, and none of those commands fails. -/
def Obligations.PackBySetEqualsPackByChunk : Prop :=
  ∀ (f : List Bool) (n : Arg) (o : Bool) (s : State), s.Inv → s.busy = false → f.length = n.toNat →
    (f.length ≤ 4096 ∨ o = true) →
    ∃ t u, Runs (packAuto o n :: setFlags f (min f.length 4096)) s t ∧
      Runs (packAuto o n :: putChunks f ((min f.length 4096 + 63) / 64)) s u ∧
      AllOk (newResponses s t) ∧ AllOk (newResponses s u) ∧ t.bf = u.bf

/-- R110 (an inference the spec marks `[derived: …]`): the dynamic round trip. Packing any flags and unpacking the words with
the same count succeeds, no response on the way being an error, and gives the flags back exactly; beyond 4096 flags, with
overflow allowed, the first 4096 come back and the rest are false. -/
def Obligations.DynamicRoundTrip : Prop :=
  ∀ (f : List Bool) (o o' : Bool) (s : State), s.Inv → s.busy = false → f.length < 65536 →
    (f.length ≤ 4096 ∨ (o = true ∧ o' = true)) →
    ∃ (w : List Word) (t u : State),
      (pack f .auto o).run s = (.ok w, t) ∧ w.length = (min f.length 4096 + 63) / 64 ∧
      (unpack .auto w f.length o').run t =
        (.ok (f.take 4096 ++ List.replicate (f.length - 4096) false), u) ∧
      AllOk (newResponses s u)

/-- R112, the fixed widths (derived): pack answers the flags below `min(n, W)` as a `W`-bit integer, unpack answers `n` flags, those
from `W` up false; each sends one command and leaves `BF`, `WC` and `DN`. -/
def Obligations.FixedProceduresGiveTheirResults : Prop :=
  ∀ (w : Width) (o : Bool) (s : State), s.Inv → s.busy = false →
    (∀ f : List Bool, f.length < 65536 → (f.length ≤ widthBits w ∨ o = true) →
      ∃ (v : BitVec (widthBits w)) (t : State), (pack f (.fixed w) o).run s = (.ok v, t) ∧
        (∀ j < widthBits w, v.getLsbD j = f.getD j false) ∧ t.SameBlock s ∧ t.accepted = s.accepted + 1) ∧
    (∀ (p : BitVec (widthBits w)) (n : Nat), n < 65536 → (n ≤ widthBits w ∨ o = true) →
      ∃ (g : List Bool) (t : State), (unpack (.fixed w) p n o).run s = (.ok g, t) ∧
        g.length = n ∧ (∀ i < n, g[i]? = some (decide (i < widthBits w) && p.getLsbD i)) ∧
        t.SameBlock s ∧ t.accepted = s.accepted + 1)

/-- R112 (derived): any error response ends a procedure. If pack or unpack ends in an error response, that is the last response
taken and the first that is no success; if it gives an output, every response was a success. -/
def Obligations.HostProceduresEndAtFirstError : Prop :=
  (∀ (f : List Bool) (width : WordWidth) (o : Bool) (s t : State) (r : Response),
    s.Inv → s.busy = false → (pack f width o).run s = (.error (.errorResponse r), t) →
    r.status ≠ .ok ∧ ∃ rs, newResponses s t = rs ++ [r] ∧ AllOk rs) ∧
  (∀ (width : WordWidth) (p : Packed width) (n : Nat) (o : Bool) (s t : State) (r : Response),
    s.Inv → s.busy = false → (unpack width p n o).run s = (.error (.errorResponse r), t) →
    r.status ≠ .ok ∧ ∃ rs, newResponses s t = rs ++ [r] ∧ AllOk rs) ∧
  (∀ (f : List Bool) (width : WordWidth) (o : Bool) (s t : State) (q : Packed width),
    s.Inv → s.busy = false → (pack f width o).run s = (.ok q, t) → AllOk (newResponses s t)) ∧
  (∀ (width : WordWidth) (p : Packed width) (n : Nat) (o : Bool) (s t : State) (g : List Bool),
    s.Inv → s.busy = false → (unpack width p n o).run s = (.ok g, t) → AllOk (newResponses s t))

/-- R112 and R101 (derived): when pack and unpack fail, and after how many commands. Too many flags for the representation without
overflow allowed ends pack, and unpack of a fixed width, at its first command; unpack of words ends at NEW when there are more
than 64 of them, and at UNPACK when the count exceeds their bits. A number no command can carry ends the procedure before
anything is sent, which is the model's choice (log 19). An unrecognised width is `auto`. -/
def Obligations.HostProceduresFail : Prop :=
  (∀ (w : Width) (f : List Bool) (s : State), s.Inv → s.busy = false → f.length < 65536 → widthBits w < f.length →
    ∃ t, (pack f (.fixed w) false).run s = (.error (.errorResponse
        (Response.error .overflow (BitVec.ofNat 16 f.length) (BitVec.ofNat 16 (widthBits w)))), t) ∧
      t.SameBlock s ∧ t.accepted = s.accepted + 1) ∧
  (∀ (w : Width) (p : BitVec (widthBits w)) (n : Nat) (s : State), s.Inv → s.busy = false → n < 65536 →
    widthBits w < n →
    ∃ t, (unpack (.fixed w) p n false).run s = (.error (.errorResponse
        (Response.error .overflow (BitVec.ofNat 16 n) (BitVec.ofNat 16 (widthBits w)))), t) ∧
      t.SameBlock s ∧ t.accepted = s.accepted + 1) ∧
  (∀ (f : List Bool) (s : State), s.Inv → s.busy = false → f.length < 65536 → 4096 < f.length →
    ∃ t, (pack f .auto false).run s = (.error (.errorResponse
        (Response.error .overflow (BitVec.ofNat 16 f.length) 4096)), t) ∧
      t.SameBlock s ∧ t.accepted = s.accepted + 1) ∧
  (∀ (ws : List Word) (n : Nat) (o : Bool) (s : State), s.Inv → s.busy = false → n < 65536 → 64 < ws.length →
    64 * ws.length < 65536 →
    ∃ t, (unpack .auto ws n o).run s = (.error (.errorResponse
        (Response.error .capacity (BitVec.ofNat 16 (64 * ws.length)) 4096)), t) ∧
      t.SameBlock s ∧ t.accepted = s.accepted + 1) ∧
  (∀ (ws : List Word) (n : Nat) (s : State), s.Inv → s.busy = false → n < 65536 → ws.length ≤ 64 →
    64 * ws.length < n →
    ∃ t, (unpack .auto ws n false).run s = (.error (.errorResponse
        (Response.error .overflow (BitVec.ofNat 16 n) (BitVec.ofNat 16 (64 * ws.length)))), t) ∧
      t.accepted = s.accepted + ws.length + 2) ∧
  (∀ (f : List Bool) (width : WordWidth) (o : Bool) (s : State), 65536 ≤ f.length →
    (pack f width o).run s = (.error (.unsendable f.length), s)) ∧
  (∀ (width : WordWidth) (p : Packed width) (n : Nat) (o : Bool) (s : State), 65536 ≤ n →
    (unpack width p n o).run s = (.error (.unsendable n), s)) ∧
  (∀ (ws : List Word) (n : Nat) (o : Bool) (s : State), n < 65536 → 65536 ≤ 64 * ws.length →
    (unpack .auto ws n o).run s = (.error (.unsendable (64 * ws.length)), s)) ∧
  (∀ (f : List Bool) (o : Bool), pack f .unrecognised o = pack f .auto o) ∧
  (∀ (ws : List Word) (n : Nat) (o : Bool), unpack .unrecognised ws n o = unpack .auto ws n o)

/-- R178 in the model (derived; the form is log 5): the latency is a free value of the command, its operand and the registers, and a
command is answered at the edge after that many cycles, whatever the number. -/
def Obligations.LatencyIsThatOfTheCommand : Prop :=
  ∀ (s : State) (first : InPins), s.Inv → s.busy = false → first.rst = false → first.cmdValid = true →
    ∃ t, clockEdge first s = .next t ∧
      t.wait = Config.latency s.accepted first.cmd.hdr first.cmd.data s.wc s.dn ∧
      ∀ mid : List InPins, mid.length ≤ t.wait → (∀ p ∈ mid, p.rst = false) →
        ∃ u, clockEdges mid t = .next u ∧ ((outPins false u).rspValid = true ↔ mid.length = t.wait)
end

