-- ==== Sys2Proof/Laws/Decode.lean ====
section
/-! SUPPORT. The fields of an assembled header are the values it was assembled from. -/

namespace Sys2Proof

section

variable (op : BitVec 4) (wsel : BitVec 3) (ovf val : Bool) (arg : Arg)

@[simp] theorem opField_header : opField (header op wsel ovf val arg) = op := by
  apply BitVec.eq_of_getLsbD_eq
  intro j hj
  interval_cases j <;> simp [opField, header]

@[simp] theorem wselField_header : wselField (header op wsel ovf val arg) = wsel := by
  apply BitVec.eq_of_getLsbD_eq
  intro j hj
  interval_cases j <;> simp [wselField, header]

@[simp] theorem ovfField_header : ovfField (header op wsel ovf val arg) = ovf := by
  simp [ovfField, header]

@[simp] theorem valField_header : valField (header op wsel ovf val arg) = val := by
  simp [valField, header]

@[simp] theorem resField_header : resField (header op wsel ovf val arg) = 0 := by
  apply BitVec.eq_of_getLsbD_eq
  intro j hj
  interval_cases j <;> simp [resField, header]

@[simp] theorem argField_header : argField (header op wsel ovf val arg) = arg := by
  apply BitVec.eq_of_getLsbD_eq
  intro j hj
  interval_cases j <;> simp [argField, header]

end

@[simp] theorem widthOfSel_selOfWidth (w : Width) : widthOfSel (selOfWidth w) = w := by cases w <;> rfl

@[simp] theorem wselOfWidth_low (w : Width) : (wselOfWidth w).extractLsb' 0 2 = selOfWidth w := by cases w <;> rfl

@[simp] theorem wselOfWidth_top (w : Width) : (wselOfWidth w).getLsbD 2 = false := by cases w <;> rfl

/-- A header is put together from its fields. -/
theorem header_fields {h : Header} (hr : resField h = 0) :
    header (opField h) (wselField h) (ovfField h) (valField h) (argField h) = h := by
  have bit : ∀ j < 7, h.getLsbD (9 + j) = false := by
    intro j hj
    have := congrArg (fun v : BitVec 7 => v.getLsbD j) hr
    simpa [resField, hj] using this
  have b0 := bit 0 (by decide); have b1 := bit 1 (by decide); have b2 := bit 2 (by decide)
  have b3 := bit 3 (by decide); have b4 := bit 4 (by decide); have b5 := bit 5 (by decide)
  have b6 := bit 6 (by decide)
  apply BitVec.eq_of_getLsbD_eq
  intro j hj
  interval_cases j <;> simp_all [header, opField, wselField, ovfField, valField, argField]

theorem wselOfWidth_widthOfSel (w : BitVec 3) (h : w.getLsbD 2 = false) :
    wselOfWidth (widthOfSel (w.extractLsb' 0 2)) = w := by
  revert w; decide

/-- What a legal header's fields are, and what it decodes to. -/
theorem decode_ok_fields {c : Command} {i : Instr} (h : decode c = .ok i) :
    i.wellFormed = true ∧ resField c.hdr = 0 ∧ (encode i).hdr = header (opField c.hdr) (wselField c.hdr) (ovfField c.hdr) (valField c.hdr) (argField c.hdr) ∧ (encode i).data = if i.usesData then c.data else 0 := by
  unfold decode at h
  split at h
  · cases h
  split at h
  · cases h
  rename_i h1 h2
  have hr : resField c.hdr = 0 := by simpa using h2
  have key : ∀ k : Nat, k < 16 → (opField c.hdr).toNat = k → opField c.hdr = BitVec.ofNat 4 k := by
    intro k hk e; apply BitVec.eq_of_toNat_eq; simp [e]; omega
  split at h <;> rename_i ho
  all_goals try (have ho' := key _ (by decide) ho)
  all_goals try (unfold decodePlain at h; split at h <;> cases h; rename_i h3; simp at h3; simp [encode, Instr.wellFormed, Instr.usesData, hr, ho', h3])
  · unfold decodeSet at h; split at h <;> cases h; rename_i h3; simp at h3; simp [encode, Instr.wellFormed, Instr.usesData, hr, ho', h3]
  · unfold decodePack at h; split at h
    · cases h
    split at h <;> cases h <;> rename_i h3 h4 <;> simp only [Bool.not_eq_true] at h3
    · simp only [encode, Instr.wellFormed, Instr.usesData, hr, ho', h3, h4]; simp
    · simp only [Bool.not_eq_true] at h4; simp only [encode, Instr.wellFormed, Instr.usesData, hr, ho', h3, wselOfWidth_widthOfSel _ h4]; simp
  · unfold decodeUnpack at h; split at h
    · cases h
    split at h <;> cases h <;> rename_i h3 h4 <;> simp only [Bool.not_eq_true] at h3
    · simp only [encode, Instr.wellFormed, Instr.usesData, hr, ho', h3, h4]; simp
    · simp only [Bool.not_eq_true] at h4; simp only [encode, Instr.wellFormed, Instr.usesData, hr, ho', h3, wselOfWidth_widthOfSel _ h4]; simp
  · unfold decodeStat at h; split at h
    · cases h
    unfold decodePlain at h; split at h <;> cases h; rename_i h4 h3; simp at h3 h4; simp [encode, Instr.wellFormed, Instr.usesData, hr, ho', h3, h4]
  · cases h

end Sys2Proof
end

