-- ==== Sys2Proof/Laws/State.lean ====
section
/-! SUPPORT. One lemma per field of State and update of it, so that no proof unfolds a record update. -/

namespace Sys2Proof.Machine

/-! ## writeWord -/

@[simp] theorem writeWord_bf (k : Nat) (v : Word) (s : State) : (writeWord k v s).bf = s.bf.setIfInBounds k v := rfl
@[simp] theorem writeWord_wc (k : Nat) (v : Word) (s : State) : (writeWord k v s).wc = s.wc := rfl
@[simp] theorem writeWord_dn (k : Nat) (v : Word) (s : State) : (writeWord k v s).dn = s.dn := rfl
@[simp] theorem writeWord_busy (k : Nat) (v : Word) (s : State) : (writeWord k v s).busy = s.busy := rfl
@[simp] theorem writeWord_rsp (k : Nat) (v : Word) (s : State) : (writeWord k v s).rsp = s.rsp := rfl
@[simp] theorem writeWord_wait (k : Nat) (v : Word) (s : State) : (writeWord k v s).wait = s.wait := rfl
@[simp] theorem writeWord_accepted (k : Nat) (v : Word) (s : State) : (writeWord k v s).accepted = s.accepted := rfl
@[simp] theorem writeWord_resets (k : Nat) (v : Word) (s : State) : (writeWord k v s).resets = s.resets := rfl
@[simp] theorem writeWord_inputs (k : Nat) (v : Word) (s : State) : (writeWord k v s).inputs = s.inputs := rfl
@[simp] theorem writeWord_taken (k : Nat) (v : Word) (s : State) : (writeWord k v s).taken = s.taken := rfl

/-! ## clearStorage -/

@[simp] theorem clearStorage_bf (s : State) : (clearStorage s).bf = Vector.replicate Config.maxWords 0 := rfl
@[simp] theorem clearStorage_wc (s : State) : (clearStorage s).wc = s.wc := rfl
@[simp] theorem clearStorage_dn (s : State) : (clearStorage s).dn = s.dn := rfl
@[simp] theorem clearStorage_busy (s : State) : (clearStorage s).busy = s.busy := rfl
@[simp] theorem clearStorage_rsp (s : State) : (clearStorage s).rsp = s.rsp := rfl
@[simp] theorem clearStorage_wait (s : State) : (clearStorage s).wait = s.wait := rfl
@[simp] theorem clearStorage_accepted (s : State) : (clearStorage s).accepted = s.accepted := rfl
@[simp] theorem clearStorage_resets (s : State) : (clearStorage s).resets = s.resets := rfl
@[simp] theorem clearStorage_inputs (s : State) : (clearStorage s).inputs = s.inputs := rfl
@[simp] theorem clearStorage_taken (s : State) : (clearStorage s).taken = s.taken := rfl

/-! ## writeWC -/

@[simp] theorem writeWC_bf (v : Nat) (s : State) : (writeWC v s).bf = s.bf := rfl
@[simp] theorem writeWC_wc (v : Nat) (s : State) : (writeWC v s).wc = BitVec.ofNat 7 v := rfl
@[simp] theorem writeWC_dn (v : Nat) (s : State) : (writeWC v s).dn = s.dn := rfl
@[simp] theorem writeWC_busy (v : Nat) (s : State) : (writeWC v s).busy = s.busy := rfl
@[simp] theorem writeWC_rsp (v : Nat) (s : State) : (writeWC v s).rsp = s.rsp := rfl
@[simp] theorem writeWC_wait (v : Nat) (s : State) : (writeWC v s).wait = s.wait := rfl
@[simp] theorem writeWC_accepted (v : Nat) (s : State) : (writeWC v s).accepted = s.accepted := rfl
@[simp] theorem writeWC_resets (v : Nat) (s : State) : (writeWC v s).resets = s.resets := rfl
@[simp] theorem writeWC_inputs (v : Nat) (s : State) : (writeWC v s).inputs = s.inputs := rfl
@[simp] theorem writeWC_taken (v : Nat) (s : State) : (writeWC v s).taken = s.taken := rfl

/-! ## writeDN -/

@[simp] theorem writeDN_bf (v : Nat) (s : State) : (writeDN v s).bf = s.bf := rfl
@[simp] theorem writeDN_wc (v : Nat) (s : State) : (writeDN v s).wc = s.wc := rfl
@[simp] theorem writeDN_dn (v : Nat) (s : State) : (writeDN v s).dn = BitVec.ofNat 16 v := rfl
@[simp] theorem writeDN_busy (v : Nat) (s : State) : (writeDN v s).busy = s.busy := rfl
@[simp] theorem writeDN_rsp (v : Nat) (s : State) : (writeDN v s).rsp = s.rsp := rfl
@[simp] theorem writeDN_wait (v : Nat) (s : State) : (writeDN v s).wait = s.wait := rfl
@[simp] theorem writeDN_accepted (v : Nat) (s : State) : (writeDN v s).accepted = s.accepted := rfl
@[simp] theorem writeDN_resets (v : Nat) (s : State) : (writeDN v s).resets = s.resets := rfl
@[simp] theorem writeDN_inputs (v : Nat) (s : State) : (writeDN v s).inputs = s.inputs := rfl
@[simp] theorem writeDN_taken (v : Nat) (s : State) : (writeDN v s).taken = s.taken := rfl

/-! ## allocate -/

@[simp] theorem allocate_bf (n : Nat) (s : State) : (allocate n s).bf = Vector.replicate Config.maxWords 0 := rfl
@[simp] theorem allocate_wc (n : Nat) (s : State) : (allocate n s).wc = BitVec.ofNat 7 (wordsFor n) := rfl
@[simp] theorem allocate_dn (n : Nat) (s : State) : (allocate n s).dn = s.dn := rfl
@[simp] theorem allocate_busy (n : Nat) (s : State) : (allocate n s).busy = s.busy := rfl
@[simp] theorem allocate_rsp (n : Nat) (s : State) : (allocate n s).rsp = s.rsp := rfl
@[simp] theorem allocate_wait (n : Nat) (s : State) : (allocate n s).wait = s.wait := rfl
@[simp] theorem allocate_accepted (n : Nat) (s : State) : (allocate n s).accepted = s.accepted := rfl
@[simp] theorem allocate_resets (n : Nat) (s : State) : (allocate n s).resets = s.resets := rfl
@[simp] theorem allocate_inputs (n : Nat) (s : State) : (allocate n s).inputs = s.inputs := rfl
@[simp] theorem allocate_taken (n : Nat) (s : State) : (allocate n s).taken = s.taken := rfl

/-! ## respond -/

@[simp] theorem respond_bf (st : Status) (d : Word) (a b : Arg) (s : State) : (respond st d a b s).bf = s.bf := rfl
@[simp] theorem respond_wc (st : Status) (d : Word) (a b : Arg) (s : State) : (respond st d a b s).wc = s.wc := rfl
@[simp] theorem respond_dn (st : Status) (d : Word) (a b : Arg) (s : State) : (respond st d a b s).dn = s.dn := rfl
@[simp] theorem respond_busy (st : Status) (d : Word) (a b : Arg) (s : State) : (respond st d a b s).busy = s.busy := rfl
@[simp] theorem respond_rsp (st : Status) (d : Word) (a b : Arg) (s : State) : (respond st d a b s).rsp = some ⟨st, d, a, b⟩ := rfl
@[simp] theorem respond_wait (st : Status) (d : Word) (a b : Arg) (s : State) : (respond st d a b s).wait = s.wait := rfl
@[simp] theorem respond_accepted (st : Status) (d : Word) (a b : Arg) (s : State) : (respond st d a b s).accepted = s.accepted := rfl
@[simp] theorem respond_resets (st : Status) (d : Word) (a b : Arg) (s : State) : (respond st d a b s).resets = s.resets := rfl
@[simp] theorem respond_inputs (st : Status) (d : Word) (a b : Arg) (s : State) : (respond st d a b s).inputs = s.inputs := rfl
@[simp] theorem respond_taken (st : Status) (d : Word) (a b : Arg) (s : State) : (respond st d a b s).taken = s.taken := rfl

/-! ## resetBlock -/

@[simp] theorem resetBlock_bf (s : State) : (resetBlock s).bf = Storage.drawn s.resets := rfl
@[simp] theorem resetBlock_wc (s : State) : (resetBlock s).wc = 0 := rfl
@[simp] theorem resetBlock_dn (s : State) : (resetBlock s).dn = 0 := rfl
@[simp] theorem resetBlock_busy (s : State) : (resetBlock s).busy = false := rfl
@[simp] theorem resetBlock_rsp (s : State) : (resetBlock s).rsp = none := rfl
@[simp] theorem resetBlock_wait (s : State) : (resetBlock s).wait = 0 := rfl
@[simp] theorem resetBlock_accepted (s : State) : (resetBlock s).accepted = s.accepted := rfl
@[simp] theorem resetBlock_resets (s : State) : (resetBlock s).resets = s.resets + 1 := rfl
@[simp] theorem resetBlock_inputs (s : State) : (resetBlock s).inputs = s.inputs := rfl
@[simp] theorem resetBlock_taken (s : State) : (resetBlock s).taken = s.taken := rfl

/-! ## State.reset -/

@[simp] theorem reset_wc : State.reset.wc = 0 := rfl
@[simp] theorem reset_dn : State.reset.dn = 0 := rfl
@[simp] theorem reset_busy : State.reset.busy = false := rfl
@[simp] theorem reset_rsp : State.reset.rsp = none := rfl
@[simp] theorem reset_wait : State.reset.wait = 0 := rfl
@[simp] theorem reset_inputs : State.reset.inputs = [] := rfl
@[simp] theorem reset_taken : State.reset.taken = [] := rfl

end Sys2Proof.Machine
end

