-- ==== Sys2Proof/Laws/Words.lean ====
section
/-! SUPPORT. Bit by bit, what the word operations of Machine/Operands.lean compute. -/

namespace Sys2Proof.Machine

@[simp] theorem wordBits_eq : Config.wordBits = 64 := rfl

@[simp] theorem maxBits_eq : Config.maxBits = 4096 := rfl

@[simp] theorem getLsbD_lowmask (m j : Nat) : (lowmask m).getLsbD j = (decide (j < 64) && decide (j < m)) := by
  rw [lowmask, BitVec.getLsbD_ofNat, Nat.testBit_two_pow_sub_one]

@[simp] theorem getElem_lowmask (m j : Nat) (hj : j < 64) : (lowmask m)[j] = decide (j < m) := by
  rw [← BitVec.getLsbD_eq_getElem, getLsbD_lowmask]
  simp [hj]

theorem getLsbD_insertBit (w : Word) (i j : Nat) (b : Bool) (hj : j < 64) :
    (insertBit w i b).getLsbD j = if j = i then b else w.getLsbD j := by
  rcases lt_trichotomy j i with h | h | h
  · simp [insertBit, hj, h, h.ne]
  · subst h; cases b <;> simp [insertBit, hj]
  · have h0 : j - i ≠ 0 := by omega
    have h1 : ¬ j < i := by omega
    cases b <;> simp [insertBit, hj, h1, h.ne', h0]

theorem insertBit_self (w : Word) (i : Nat) : insertBit w i (w.getLsbD i) = w := by
  apply BitVec.eq_of_getLsbD_eq
  intro j hj
  rw [getLsbD_insertBit _ _ _ _ hj]
  split
  · next h => rw [h]
  · rfl

theorem getLsbD_packBits (f : Nat → Bool) (m j : Nat) (hj : j < 64) :
    (packBits f m).getLsbD j = (decide (j < m) && f j) := by
  induction m with
  | zero => simp [packBits]
  | succ m ih =>
    rw [packBits, getLsbD_insertBit _ _ _ _ hj]
    by_cases h : j = m
    · simp [h]
    · have : j < m + 1 ↔ j < m := by omega
      simp [h, ih, this]

@[simp] theorem bitWord_eq (w : Word) (j : Nat) : bitWord w j = if w.getLsbD j then 1 else 0 := by
  unfold bitWord; cases w.getLsbD j <;> rfl

/-- Flag `j` of chunk `k` lies below the count exactly when its index does. -/
theorem lt_chunkFlags (dn k j : Nat) (hj : j < 64) : j < chunkFlags dn k ↔ 64 * k + j < dn := by
  simp only [chunkFlags, Config.wordBits]; omega

theorem wordsFor_eq (n : Nat) : wordsFor n = (n + 63) / 64 := rfl

theorem widthBits_le (w : Width) : widthBits w ≤ 64 := by cases w <;> decide

theorem widthBits_widthOfSel_shift (w : Width) : ∃ j, widthBits w = 8 <<< j ∧ j < 4 := by
  cases w
  exacts [⟨0, rfl, by decide⟩, ⟨1, rfl, by decide⟩, ⟨2, rfl, by decide⟩, ⟨3, rfl, by decide⟩]

end Sys2Proof.Machine
end

