-- ==== Sys2Proof/Laws/Ops.lean ====
section
/-! SUPPORT. Once for each shared operation, everything it can do; later proofs cite these and unfold nothing. -/

namespace Sys2Proof.Machine

/-! ## Storage: read after write -/

theorem readWord_eq_some_of_lt (s : State) {k : Nat} (h : k < 64) : ∃ w, readWord s k = some w :=
  ⟨s.bf[k], Vector.getElem?_eq_getElem h⟩

theorem readWord_eq_none_of_ge (s : State) {k : Nat} (h : 64 ≤ k) : readWord s k = none :=
  Vector.getElem?_eq_none h

theorem readWord_writeWord (s : State) (k j : Nat) (v : Word) :
    readWord (writeWord k v s) j = if k = j then (if k < 64 then some v else none) else readWord s j := by
  simp only [readWord, writeWord_bf, Vector.getElem?_setIfInBounds]

theorem readWord_allocate (s : State) (n : Nat) {k : Nat} (h : k < 64) : readWord (allocate n s) k = some 0 := by
  simp [readWord, h]

theorem readWord_resetBlock (s : State) {k : Nat} (h : k < 64) :
    readWord (resetBlock s) k = some (Config.bfAtReset s.resets k) := by
  simp [readWord, Storage.drawn, h]

theorem readWord_congr {s t : State} (h : t.bf = s.bf) (k : Nat) : readWord t k = readWord s k := by
  simp only [readWord, h]

theorem readBit_congr {s t : State} (h : t.bf = s.bf) (i : Nat) : readBit t i = readBit s i := by
  simp only [readBit, readWord_congr h]

@[simp] theorem readWord_respond (st : Status) (d : Word) (a b : Arg) (s : State) (k : Nat) :
    readWord (respond st d a b s) k = readWord s k := rfl

/-- Two storages with the same words are the same storage: the form is canonical by its type. -/
theorem bf_eq_of_readWord {s t : State} (h : ∀ k < 64, readWord t k = readWord s k) : t.bf = s.bf := by
  apply Vector.ext
  intro k hk
  have := h k hk
  simpa [readWord, hk] using this

/-! ## Checks -/

theorem outOfRange_iff (s : State) (k : Nat) : outOfRange s k = true ↔ s.wc.toNat ≤ k := by simp [outOfRange]

/-- Everything `withWord` can do. -/
theorem withWord_cases (info : Arg) (k : Nat) (s : State) (go : Word → Result) :
    (s.wc.toNat ≤ k ∧ withWord info k s go = .next (respond .indexOutOfRange 0 info (wcInfo s) s)) ∨
    (k < s.wc.toNat ∧ ∃ w, readWord s k = some w ∧ withWord info k s go = go w) ∨
    (k < s.wc.toNat ∧ 64 ≤ k ∧ withWord info k s go = .fault .storageOverrun) := by
  by_cases h : s.wc.toNat ≤ k
  · exact .inl ⟨h, by simp [withWord, outOfRange, h, raise]⟩
  · by_cases hk : k < 64
    · obtain ⟨w, hw⟩ := readWord_eq_some_of_lt s hk
      exact .inr (.inl ⟨by omega, w, hw, by simp [withWord, outOfRange, h, hw]⟩)
    · have hn := readWord_eq_none_of_ge s (Nat.le_of_not_lt hk)
      exact .inr (.inr ⟨by omega, by omega, by simp [withWord, outOfRange, h, hn]⟩)

theorem withWord_of_ge {info : Arg} {k : Nat} {s : State} {go : Word → Result} (h : s.wc.toNat ≤ k) :
    withWord info k s go = .next (respond .indexOutOfRange 0 info (wcInfo s) s) := by
  simp [withWord, outOfRange, h, raise]

theorem withWord_of_lt {info : Arg} {k : Nat} {s : State} {go : Word → Result} {w : Word}
    (h : k < s.wc.toNat) (hw : readWord s k = some w) : withWord info k s go = go w := by
  simp [withWord, outOfRange, Nat.not_le.mpr h, hw]

theorem overflows_iff (n cap : Nat) (ovf : Bool) : overflows n cap ovf = true ↔ cap < n ∧ ovf = false := by
  simp [overflows]

/-- Everything `withCapacity` can do. -/
theorem withCapacity_cases (n : Arg) (cap : Nat) (ovf : Bool) (s : State) (go : Result) :
    (cap < n.toNat ∧ ovf = false ∧
      withCapacity n cap ovf s go = .next (respond .overflow 0 n (BitVec.ofNat 16 cap) s)) ∨
    ((n.toNat ≤ cap ∨ ovf = true) ∧ withCapacity n cap ovf s go = go) := by
  by_cases h : overflows n.toNat cap ovf = true
  · have := (overflows_iff _ _ _).mp h
    exact .inl ⟨this.1, this.2, by simp [withCapacity, h, raise]⟩
  · refine .inr ⟨?_, by simp [withCapacity, h]⟩
    rw [overflows_iff] at h
    cases ovf
    · left; simp at h; exact h
    · right; rfl

/-! ## The port -/

/-- Everything `perform` can do. -/
theorem perform_cases (c : Command) (s : State) :
    (∃ i, decode c = .ok i ∧ perform c s = exec i s) ∨
    (∃ e, decode c = .error e ∧ perform c s =
      .next (respond .illegal 0 (c.hdr.extractLsb' 0 16) (c.hdr.extractLsb' 16 16) s)) := by
  cases h : decode c with
  | ok i => exact .inl ⟨i, rfl, by simp [perform, h]⟩
  | error e => exact .inr ⟨e, rfl, by simp [perform, h, raiseIllegal, raise]⟩

theorem takeResponse_of_busy {s : State} {r : Response} (hb : s.busy = true) (hr : s.rsp = some r) :
    takeResponse s = { s with busy := false, rsp := none, wait := 0, taken := s.taken ++ [r] } := by
  simp [takeResponse, hb, hr]

theorem takeResponse_of_idle {s : State} (hb : s.busy = false) : takeResponse s = s := by
  simp [takeResponse, hb]

theorem handshake_nil {s : State} (h : s.inputs = []) : handshake s = .next s := by
  simp [handshake, h]

theorem handshake_idle {s : State} {rest : List HostInput} (h : s.inputs = .idle :: rest) :
    handshake s = .next { s with inputs := rest } := by
  simp [handshake, h]

theorem handshake_reset {s : State} {rest : List HostInput} (h : s.inputs = .reset :: rest) :
    handshake s = .next (resetBlock { s with inputs := rest }) := by
  simp [handshake, h]

theorem handshake_take {s : State} {rest : List HostInput} (h : s.inputs = .take :: rest) :
    handshake s = .next (takeResponse { s with inputs := rest }) := by
  simp [handshake, h]

theorem handshake_send_busy {s : State} {c : Command} {rest : List HostInput} (h : s.inputs = .send c :: rest)
    (hb : s.busy = true) : handshake s = .next s := by
  simp [handshake, h, hb]

theorem handshake_send {s : State} {c : Command} {rest : List HostInput} (h : s.inputs = .send c :: rest)
    (hb : s.busy = false) : handshake s = accept c 0 { s with inputs := rest } := by
  simp [handshake, h, hb]

/-- Everything a step can do. -/
theorem handshake_cases (s : State) :
    (s.inputs = [] ∧ handshake s = .next s) ∨
    (∃ rest, s.inputs = .idle :: rest ∧ handshake s = .next { s with inputs := rest }) ∨
    (∃ rest, s.inputs = .reset :: rest ∧ handshake s = .next (resetBlock { s with inputs := rest })) ∨
    (∃ rest, s.inputs = .take :: rest ∧ handshake s = .next (takeResponse { s with inputs := rest })) ∨
    (∃ c rest, s.inputs = .send c :: rest ∧ s.busy = true ∧ handshake s = .next s) ∨
    (∃ c rest, s.inputs = .send c :: rest ∧ s.busy = false ∧
      handshake s = accept c 0 { s with inputs := rest }) := by
  rcases h : s.inputs with _ | ⟨_ | _ | _ | _, rest⟩
  · exact .inl ⟨rfl, handshake_nil h⟩
  · rename_i c
    cases hb : s.busy
    · exact .inr (.inr (.inr (.inr (.inr ⟨c, rest, rfl, rfl, handshake_send h hb⟩))))
    · exact .inr (.inr (.inr (.inr (.inl ⟨c, rest, rfl, rfl, handshake_send_busy h hb⟩))))
  · exact .inr (.inr (.inr (.inl ⟨rest, rfl, handshake_take h⟩)))
  · exact .inr (.inr (.inl ⟨rest, rfl, handshake_reset h⟩))
  · exact .inr (.inl ⟨rest, rfl, handshake_idle h⟩)

end Sys2Proof.Machine
end

