-- ==== Sys2Proof/Laws/Exec.lean ====
section
/-! SUPPORT. What a meaning reads and what it can answer; runs and clock edges one at a time. -/

namespace Sys2Proof.Machine

/-- The port's side of a state. -/
structure PortSide where
  busy : Bool
  wait : Nat
  accepted : Nat
  resets : Nat
  inputs : List HostInput
  taken : List Response

/-- The state with that side. -/
def State.setPort (p : PortSide) (s : State) : State :=
  { s with busy := p.busy, wait := p.wait, accepted := p.accepted, resets := p.resets, inputs := p.inputs, taken := p.taken }

@[simp] theorem mapNext_next (f : State → State) (t : State) : mapNext f (.next t) = .next (f t) := rfl

@[simp] theorem andThen_next (t : State) (f : State → Result) : andThen (.next t) f = f t := rfl

@[simp] theorem andThen_fault (e : Fault) (f : State → Result) : andThen (.fault e) f = .fault e := rfl

@[simp] theorem andThen_refused (e : Refusal) (f : State → Result) : andThen (.refused e) f = .refused e := rfl

theorem andThen_assoc (r : Result) (f g : State → Result) :
    andThen (andThen r f) g = andThen r fun t => andThen (f t) g := by cases r <;> rfl

theorem withWord_setPort (p : PortSide) (info : Arg) (k : Nat) (s : State) (go go' : Word → Result)
    (h : ∀ w, go' w = mapNext (State.setPort p) (go w)) :
    withWord info k (s.setPort p) go' = mapNext (State.setPort p) (withWord info k s go) := by
  have hr : readWord (s.setPort p) k = readWord s k := rfl
  have ho : outOfRange (s.setPort p) k = outOfRange s k := rfl
  unfold withWord
  rw [ho, hr]
  cases outOfRange s k
  · cases readWord s k
    · rfl
    · exact h _
  · rfl

theorem withCapacity_setPort (p : PortSide) (n : Arg) (cap : Nat) (ovf : Bool) (s : State) (go go' : Result)
    (h : go' = mapNext (State.setPort p) go) :
    withCapacity n cap ovf (s.setPort p) go' = mapNext (State.setPort p) (withCapacity n cap ovf s go) := by
  unfold withCapacity
  cases overflows n.toNat cap ovf
  · exact h
  · rfl

/-- No meaning reads the port's side. -/
theorem exec_setPort (p : PortSide) (i : Instr) (s : State) :
    exec i (s.setPort p) = mapNext (State.setPort p) (exec i s) := by
  cases i with
  | new size =>
    show execNew _ _ = mapNext _ (execNew _ _)
    unfold execNew
    cases overCapacity size.toNat <;> rfl
  | set ix b => exact withWord_setPort p _ _ s _ _ fun w => rfl
  | get ix => exact withWord_setPort p _ _ s _ _ fun w => rfl
  | readw k => exact withWord_setPort p _ _ s _ _ fun w => rfl
  | writew k d => exact withWord_setPort p _ _ s _ _ fun w => rfl
  | packFix w o n d => exact withCapacity_setPort p _ _ _ s _ _ rfl
  | packDyn q o n => exact withCapacity_setPort p _ _ _ s _ _ rfl
  | unpackFix w o n d => exact withCapacity_setPort p _ _ _ s _ _ rfl
  | unpackDyn q o n => exact withCapacity_setPort p _ _ _ s _ _ rfl
  | dput k d => exact withWord_setPort p _ _ s _ _ fun w => rfl
  | dget k =>
    show execDget _ _ = mapNext _ (execDget _ _)
    have hr : readWord (s.setPort p) k.toNat = readWord s k.toNat := rfl
    have ho : outOfRange (s.setPort p) k.toNat = outOfRange s k.toNat := rfl
    unfold execDget
    rw [ho, hr]
    cases outOfRange s k.toNat
    · cases readWord s k.toNat <;> rfl
    · rfl
  | stat => rfl

/-- What `exec` can answer: the state with some writes, and one response that is a result or an error without writes. -/
theorem exec_next {i : Instr} {s t : State} (h : exec i s = .next t) :
    ∃ (u : State) (r : Response), t = { u with rsp := some r } ∧ t.SamePort s ∧
      ((∃ d, r = Response.okay d) ∨ (∃ st a b, st ≠ .ok ∧ r = Response.error st a b ∧ u = s)) := by
  have sp : ∀ v : State, v.SamePort v := fun v => ⟨rfl, rfl, rfl, rfl, rfl, rfl⟩
  have ww : ∀ (info : Arg) (k : Nat) (go : Word → Result),
      withWord info k s go = .next t → (∀ w, go w = .next t → ∃ (d : Word) (u : State), t = { u with rsp := some (Response.okay d) } ∧ t.SamePort s) →
      ∃ (u : State) (r : Response), t = { u with rsp := some r } ∧ t.SamePort s ∧
      ((∃ d, r = Response.okay d) ∨ (∃ st a b, st ≠ .ok ∧ r = Response.error st a b ∧ u = s)) := by
    intro info k go h hg
    rcases withWord_cases info k s go with ⟨_, e⟩ | ⟨_, w, _, e⟩ | ⟨_, _, e⟩ <;> rw [e] at h
    · cases h; exact ⟨s, _, rfl, sp s, .inr ⟨.indexOutOfRange, _, _, by decide, rfl, rfl⟩⟩
    · obtain ⟨d, u, e1, e2⟩ := hg w h; exact ⟨u, _, e1, e2, .inl ⟨d, rfl⟩⟩
    · cases h
  have wc : ∀ (n : Arg) (cap : Nat) (o : Bool) (go : Result),
      withCapacity n cap o s go = .next t → (go = .next t → ∃ (d : Word) (u : State), t = { u with rsp := some (Response.okay d) } ∧ t.SamePort s) →
      ∃ (u : State) (r : Response), t = { u with rsp := some r } ∧ t.SamePort s ∧
      ((∃ d, r = Response.okay d) ∨ (∃ st a b, st ≠ .ok ∧ r = Response.error st a b ∧ u = s)) := by
    intro n cap o go h hg
    rcases withCapacity_cases n cap o s go with ⟨_, _, e⟩ | ⟨_, e⟩ <;> rw [e] at h
    · cases h; exact ⟨s, _, rfl, sp s, .inr ⟨.overflow, _, _, by decide, rfl, rfl⟩⟩
    · obtain ⟨d, u, e1, e2⟩ := hg h; exact ⟨u, _, e1, e2, .inl ⟨d, rfl⟩⟩
  cases i with
  | new size =>
    change execNew size s = _ at h
    unfold execNew at h
    split at h <;> cases h
    · exact ⟨s, _, rfl, sp s, .inr ⟨.capacity, _, _, by decide, rfl, rfl⟩⟩
    · exact ⟨_, _, rfl, sp s, .inl ⟨_, rfl⟩⟩
  | set ix b => exact ww _ _ _ h fun w e => by cases e; exact ⟨_, _, rfl, sp s⟩
  | get ix => exact ww _ _ _ h fun w e => by cases e; exact ⟨_, _, rfl, sp s⟩
  | readw k => exact ww _ _ _ h fun w e => by cases e; exact ⟨_, _, rfl, sp s⟩
  | writew k d => exact ww _ _ _ h fun w e => by cases e; exact ⟨_, _, rfl, sp s⟩
  | packFix w o n d => exact wc _ _ _ _ h fun e => by cases e; exact ⟨_, _, rfl, sp s⟩
  | packDyn q o n => exact wc _ _ _ _ h fun e => by cases e; exact ⟨_, _, rfl, sp s⟩
  | unpackFix w o n d => exact wc _ _ _ _ h fun e => by cases e; exact ⟨_, _, rfl, sp s⟩
  | unpackDyn q o n => exact wc _ _ _ _ h fun e => by cases e; exact ⟨_, _, rfl, sp s⟩
  | dput k d => exact ww _ _ _ h fun w e => by cases e; exact ⟨_, _, rfl, sp s⟩
  | dget k =>
    change execDget k s = _ at h
    unfold execDget at h
    split at h
    · cases h; exact ⟨_, _, rfl, sp s, .inl ⟨_, rfl⟩⟩
    · split at h <;> cases h
      exact ⟨_, _, rfl, sp s, .inl ⟨_, rfl⟩⟩
  | stat => cases h; exact ⟨_, _, rfl, sp s, .inl ⟨_, rfl⟩⟩


/-! ## Runs -/

@[simp] theorem runSteps_zero (s : State) : runSteps 0 s = .next s := rfl

theorem hostRun_succ (M : Host.Core) (k : Nat) (s : M.State) :
    M.run (k + 1) s = match M.step s with
      | .next t => M.run k t
      | .fault e => .fault e
      | .refused e => .refused e := by
  cases h : M.step s <;> simp only [Host.Core.run, h]

/-- One step of a run. -/
theorem runSteps_succ (k : Nat) (s : State) : runSteps (k + 1) s = andThen (step s) (runSteps k) := by
  have hs : Sys2Proof.core.step s = step s := rfl
  refine (hostRun_succ Sys2Proof.core k s).trans ?_
  rw [hs]
  cases step s <;> rfl

/-- Runs compose. -/
theorem runSteps_add (j k : Nat) (s : State) : runSteps (j + k) s = andThen (runSteps j s) (runSteps k) := by
  induction j generalizing s with
  | zero => rw [Nat.zero_add, runSteps_zero, andThen_next]
  | succ j ih => rw [Nat.add_right_comm, runSteps_succ, runSteps_succ, andThen_assoc, funext ih]

theorem perform_setPort (p : PortSide) (c : Command) (s : State) :
    perform c (s.setPort p) = mapNext (State.setPort p) (perform c s) := by
  unfold perform
  cases decode c
  · rfl
  · exact exec_setPort p _ s

/-- No meaning reads the response held. -/
theorem exec_rsp (i : Instr) (s : State) (r : Option Response) : exec i { s with rsp := r } = exec i s := by
  have ww : ∀ info k (go go' : Word → Result), (∀ w, go w = go' w) → withWord info k { s with rsp := r } go = withWord info k s go' := by
    intro info k go go' h
    have : go = go' := funext h
    subst this; rfl
  cases i with
  | set ix b => exact ww _ _ _ _ fun w => rfl
  | get ix => exact ww _ _ _ _ fun w => rfl
  | readw k => exact ww _ _ _ _ fun w => rfl
  | writew k d => exact ww _ _ _ _ fun w => rfl
  | dput k d => exact ww _ _ _ _ fun w => rfl
  | _ => rfl

theorem perform_rsp (c : Command) (s : State) (r : Option Response) : perform c { s with rsp := r } = perform c s := by
  unfold perform
  cases decode c
  · rfl
  · exact exec_rsp _ _ _

theorem perform_next {c : Command} {s t : State} (h : perform c s = .next t) :
    ∃ r, t.rsp = some r ∧ t.SamePort s := by
  rcases perform_cases c s with ⟨i, _, e⟩ | ⟨_, _, e⟩ <;> rw [e] at h
  · obtain ⟨u, r, rfl, sp, _⟩ := exec_next h; exact ⟨r, rfl, sp⟩
  · cases h; exact ⟨_, rfl, rfl, rfl, rfl, rfl, rfl, rfl⟩

theorem accept_eq (c : Command) (lat : Nat) (s : State) :
    accept c lat s =
      mapNext (State.setPort ⟨true, lat, s.accepted + 1, s.resets, s.inputs, s.taken⟩) (perform c s) := by
  rw [← perform_setPort]; rfl

/-! ## Clock edges -/

theorem clockEdges_append (ps qs : List InPins) (s : State) :
    clockEdges (ps ++ qs) s = andThen (clockEdges ps s) (clockEdges qs) := by
  induction ps generalizing s with
  | nil => rfl
  | cons p ps ih =>
    simp only [List.cons_append, clockEdges]
    cases clockEdge p s <;> simp [ih]

/-- While the latency passes, nothing the host does short of reset changes anything. -/
theorem wait_edges (mid : List InPins) (s : State) (hb : s.busy = true) (hw : s.wait = mid.length) (hm : ∀ p ∈ mid, p.rst = false) :
    clockEdges mid s = .next { s with wait := 0 } := by
  induction mid generalizing s with
  | nil => simp only [List.length_nil] at hw; simp [clockEdges, ← hw]
  | cons p ps ih =>
    have hp : p.rst = false := hm p (by simp)
    have hw' : s.wait = ps.length + 1 := by simpa using hw
    have : clockEdge p s = .next { s with wait := s.wait - 1 } := by
      simp [clockEdge, hp, hb, hw']
    rw [clockEdges, this, andThen_next, ih]
    · exact hb
    · simp [hw']
    · intro q hq; exact hm q (by simp [hq])

end Sys2Proof.Machine
end

