-- ==== Sys2Proof/Laws/PerInstr.lean ====
section
/-! SUPPORT. Families of statements made per instruction. -/

/-! `TableRow`: the encoder's header lies in the instruction's own row of opcode_table.json. -/

namespace Sys2Proof.Laws.TableRow

/-- The row is one of the table's, and its mask and match admit the encoded header. -/
def Statement (i : Instr) : Prop :=
  i.wellFormed = true → i.row ∈ tableRows ∧ i.row.covers (encode i).hdr = true

/-- A header whose masked bits agree one by one with the match lies in the row. -/
theorem covers_of_bits {r : TableRow} {h : Header}
    (hb : ∀ j < 32, (h.getLsbD j && r.mask.getLsbD j) = r.pat.getLsbD j) : r.covers h = true := by
  simp only [TableRow.covers, beq_iff_eq]
  apply BitVec.eq_of_getLsbD_eq
  intro j hj
  rw [BitVec.getLsbD_and, hb j hj]

theorem new (size : Arg) : Statement (.new size) := by
  intro _
  refine ⟨by simp [Instr.row, tableRows], covers_of_bits fun j hj => ?_⟩
  interval_cases j <;> simp [Instr.row, encode, header]

theorem set (i : Arg) (b : Bool) : Statement (.set i b) := by
  intro _
  refine ⟨by simp [Instr.row, tableRows], covers_of_bits fun j hj => ?_⟩
  interval_cases j <;> simp [Instr.row, encode, header]

theorem get (i : Arg) : Statement (.get i) := by
  intro _
  refine ⟨by simp [Instr.row, tableRows], covers_of_bits fun j hj => ?_⟩
  interval_cases j <;> simp [Instr.row, encode, header]

theorem readw (k : Arg) : Statement (.readw k) := by
  intro _
  refine ⟨by simp [Instr.row, tableRows], covers_of_bits fun j hj => ?_⟩
  interval_cases j <;> simp [Instr.row, encode, header]

theorem writew (k : Arg) (d : Word) : Statement (.writew k d) := by
  intro _
  refine ⟨by simp [Instr.row, tableRows], covers_of_bits fun j hj => ?_⟩
  interval_cases j <;> simp [Instr.row, encode, header]

theorem packFix (w : Width) (o : Bool) (n : Arg) (d : Word) : Statement (.packFix w o n d) := by
  intro _
  refine ⟨by simp [Instr.row, tableRows], covers_of_bits fun j hj => ?_⟩
  cases w <;> interval_cases j <;> simp [Instr.row, encode, header, wselOfWidth, selOfWidth]

theorem packDyn (q : BitVec 3) (o : Bool) (n : Arg) : Statement (.packDyn q o n) := by
  intro h
  refine ⟨by simp [Instr.row, tableRows], covers_of_bits fun j hj => ?_⟩
  have h2 : q.getLsbD 2 = true := h
  interval_cases j <;> simp [Instr.row, encode, header, h2]

theorem unpackFix (w : Width) (o : Bool) (n : Arg) (p : Word) : Statement (.unpackFix w o n p) := by
  intro _
  refine ⟨by simp [Instr.row, tableRows], covers_of_bits fun j hj => ?_⟩
  cases w <;> interval_cases j <;> simp [Instr.row, encode, header, wselOfWidth, selOfWidth]

theorem unpackDyn (q : BitVec 3) (o : Bool) (n : Arg) : Statement (.unpackDyn q o n) := by
  intro h
  refine ⟨by simp [Instr.row, tableRows], covers_of_bits fun j hj => ?_⟩
  have h2 : q.getLsbD 2 = true := h
  interval_cases j <;> simp [Instr.row, encode, header, h2]

theorem dput (k : Arg) (d : Word) : Statement (.dput k d) := by
  intro _
  refine ⟨by simp [Instr.row, tableRows], covers_of_bits fun j hj => ?_⟩
  interval_cases j <;> simp [Instr.row, encode, header]

theorem dget (k : Arg) : Statement (.dget k) := by
  intro _
  refine ⟨by simp [Instr.row, tableRows], covers_of_bits fun j hj => ?_⟩
  interval_cases j <;> simp [Instr.row, encode, header]

theorem stat : Statement .stat := by
  intro _
  refine ⟨by simp [Instr.row, tableRows], covers_of_bits fun j hj => ?_⟩
  interval_cases j <;> simp [Instr.row, encode, header]

end Sys2Proof.Laws.TableRow
end

