-- ==== Sys2Proof/Laws/Procedures.lean ====
section
/-! SUPPORT. What one exchange with the block does, and how a host procedure goes on after it. -/

namespace Sys2Proof.Machine

/-- The state after a command that answered `u` was sent and its response `r` taken. -/
def afterExchange (s u : State) (r : Response) : State :=
  { u with busy := false, rsp := none, wait := 0, accepted := s.accepted + 1, inputs := [], taken := s.taken ++ [r] }

@[simp] theorem afterExchange_bf (s u : State) (r : Response) : (afterExchange s u r).bf = u.bf := rfl
@[simp] theorem afterExchange_wc (s u : State) (r : Response) : (afterExchange s u r).wc = u.wc := rfl
@[simp] theorem afterExchange_dn (s u : State) (r : Response) : (afterExchange s u r).dn = u.dn := rfl
@[simp] theorem afterExchange_busy (s u : State) (r : Response) : (afterExchange s u r).busy = false := rfl
@[simp] theorem afterExchange_rsp (s u : State) (r : Response) : (afterExchange s u r).rsp = none := rfl
@[simp] theorem afterExchange_accepted (s u : State) (r : Response) :
    (afterExchange s u r).accepted = s.accepted + 1 := rfl
@[simp] theorem afterExchange_taken (s u : State) (r : Response) : (afterExchange s u r).taken = s.taken ++ [r] := rfl

/-- The block idle again, with a legal `WC`, keeps the invariant. -/
theorem afterExchange_inv {s u : State} (r : Response) (h : u.wc.toNat ≤ 64) : (afterExchange s u r).Inv :=
  ⟨h, rfl, fun _ => rfl⟩

/-- An exchange with an idle block performs the command and takes its response. -/
theorem exchange_of_idle {c : Command} {s u : State} {r : Response} (hb : s.busy = false)
    (hp : perform c s = .next u) (hr : u.rsp = some r) :
    exchange c s = some (r, afterExchange s u r) := by
  obtain ⟨_, _, hs⟩ := perform_next hp
  have hq : perform c { s with inputs := [.take] } =
      mapNext (State.setPort ⟨s.busy, s.wait, s.accepted, s.resets, [.take], s.taken⟩) (perform c s) :=
    perform_setPort ⟨s.busy, s.wait, s.accepted, s.resets, [.take], s.taken⟩ c s
  have hsend : handshake { s with inputs := [.send c, .take] } = accept c 0 { s with inputs := [.take] } :=
    handshake_send (s := { s with inputs := [.send c, .take] }) rfl hb
  unfold exchange
  rw [hsend, accept_eq, hq, hp, mapNext_next, mapNext_next, andThen_next, handshake_take (rest := []) rfl]
  simp [State.setPort, takeResponse, hr, afterExchange, hs.2.2.2.1]

/-! ## Procedures -/

section
variable {α : Type}

@[simp] theorem run_done (a : α) (s : State) : (Proc.done a).run s = (.ok a, s) := rfl

@[simp] theorem run_fail (e : HostFailure) (s : State) : (Proc.fail e : Proc α).run s = (.error e, s) := rfl

@[simp] theorem sendAll_nil (next : List Response → Proc α) : sendAll [] next = next [] := rfl

@[simp] theorem sendAll_cons (c : Command) (cs : List Command) (next : List Response → Proc α) :
    sendAll (c :: cs) next = sendOk c fun r => sendAll cs fun rs => next (r :: rs) := rfl

theorem withArg_of_lt {n : Nat} (h : n < 65536) (next : Arg → Proc α) : withArg n next = next (BitVec.ofNat 16 n) := by
  simp [withArg, h]

theorem withArg_of_ge {n : Nat} (h : 65536 ≤ n) (next : Arg → Proc α) : withArg n next = .fail (.unsendable n) := by
  simp [withArg, Nat.not_lt.mpr h]

/-- Everything `sendOk` can do on an idle block that answers: go on, or end with the error. -/
theorem run_sendOk {c : Command} {s u : State} {r : Response} (next : Response → Proc α) (hb : s.busy = false)
    (hp : perform c s = .next u) (hr : u.rsp = some r) :
    (r.status = .ok ∧ (sendOk c next).run s = (next r).run (afterExchange s u r)) ∨
    (r.status ≠ .ok ∧ (sendOk c next).run s = (.error (.errorResponse r), afterExchange s u r)) := by
  by_cases h : r.status = .ok
  · exact .inl ⟨h, by simp [sendOk, Proc.run, exchange_of_idle hb hp hr, h]⟩
  · exact .inr ⟨h, by simp [sendOk, Proc.run, exchange_of_idle hb hp hr, h]⟩

/-- A successful command goes on. -/
theorem run_sendOk_of_ok {c : Command} {s u : State} {r : Response} (next : Response → Proc α) (hb : s.busy = false)
    (hp : perform c s = .next u) (hr : u.rsp = some r) (h : r.status = .ok) :
    (sendOk c next).run s = (next r).run (afterExchange s u r) := by
  rcases run_sendOk next hb hp hr with ⟨_, e⟩ | ⟨h', _⟩
  · exact e
  · exact absurd h h'

end

end Sys2Proof.Machine
end

