-- ==== Sys2Proof/Tests/Slice0.lean ====
section
/-! SUPPORT. The model's own tests: expected values from spec/95_test_vectors.md (ids in the comments) or worked out from the
rule named; and a witness for the hypotheses of every statement. -/

namespace Sys2Proof.Tests
open Sys2Proof Sys2Proof.Machine

/-! ## WellFormed smoke: each check refuses an ill-formed term -/

theorem test_wf_refuses_packDyn_fixed_selector : (Instr.packDyn 3 false 70).wellFormed = false := by decide
theorem test_wf_refuses_unpackDyn_fixed_selector : (Instr.unpackDyn 0 true 16).wellFormed = false := by decide

/-! ## Decoding: a word for every constructor, from R66's fields -/

theorem test_decode_new : decode ⟨0x00800000, 0⟩ = .ok (.new 128) := by decide
theorem test_decode_set : decode ⟨0x00400101, 0xFFFFFFFFFFFFFFFF⟩ = .ok (.set 64 true) := by decide
theorem test_decode_get : decode ⟨0x003F0002, 0⟩ = .ok (.get 63) := by decide
theorem test_decode_readw : decode ⟨0x00010003, 0⟩ = .ok (.readw 1) := by decide
theorem test_decode_writew : decode ⟨0x00030004, 0x8000000000000000⟩ = .ok (.writew 3 0x8000000000000000) := by decide
theorem test_decode_packFix : decode ⟨0x000300B5, 6⟩ = .ok (.packFix .w64 true 3 6) := by decide
theorem test_decode_packFix16 : decode ⟨0x00040015, 0xD⟩ = .ok (.packFix .w16 false 4 0xD) := by decide
theorem test_decode_packDyn : decode ⟨0x00460075, 0⟩ = .ok (.packDyn 7 false 70) := by decide
theorem test_decode_unpackFix : decode ⟨0x00030026, 0xFF⟩ = .ok (.unpackFix .w32 false 3 0xFF) := by decide
theorem test_decode_unpackFix8 : decode ⟨0x00090086, 0xAD⟩ = .ok (.unpackFix .w8 true 9 0xAD) := by decide
theorem test_decode_unpackDyn : decode ⟨0x001000E6, 0⟩ = .ok (.unpackDyn 6 true 16) := by decide
theorem test_decode_dput : decode ⟨0x00010007, 0x3F⟩ = .ok (.dput 1 0x3F) := by decide
theorem test_decode_dget : decode ⟨0xFFFF0008, 0⟩ = .ok (.dget 65535) := by decide
theorem test_decode_stat : decode ⟨0x00000009, 5⟩ = .ok .stat := by decide

/-- DEC-1, DEC-2, DEC-4, DEC-5, DEC-6, DEC-7, DEC-8, DEC-9, DEC-10, DEC-11. -/
theorem test_decode_illegal :
    [0x0000000A, 0x1234000F, 0x00000200, 0x00000010, 0x00000100, 0x00400181, 0x00030105, 0x00000088, 0x00010009,
      0x00000809].map (fun h => decodeTableWord 32 h) = List.replicate 10 none := by decide

/-- The 96-bit layout of R61: `WRITEW 3` with its data above the header. -/
theorem test_table_word_layout :
    decodeTableWord 96 (0x8000000000000001 * 2 ^ 32 + 0x00030004) = some (.writew 3 0x8000000000000001) := by decide

/-- R72's spellings. -/
theorem test_disassemble : (Instr.packDyn 5 false 70).asm = "PACK auto5, 70, 0" := by decide

/-! ## One step on small states -/

/-- The start state of 95_test_vectors.md 2.2: `WC` = 2, `DN` = 70, `BF[0]` = 5, `BF[1]` = 7. -/
def base : State :=
  { State.reset with
    bf := ((Vector.replicate 64 0 : Storage).setIfInBounds 0 5).setIfInBounds 1 7, wc := 2, dn := 70 }

/-- The next state, or the given one at a stop. -/
def after (i : Instr) (s : State) : State :=
  match exec i s with
  | .next t => t
  | .fault _ => { s with rsp := none }
  | .refused _ => { s with rsp := none }

/-- NEW-4, NEW-6. -/
theorem test_new : (after (.new 65) base).wc = 2 ∧ (after (.new 65) base).dn = 70 ∧
    readWord (after (.new 65) base) 1 = some 0 ∧ (after (.new 65) base).rsp = some (Response.okay 2) := by decide
theorem test_new_capacity :
    (after (.new 4097) base).rsp = some (Response.error .capacity 4097 4096) ∧
      readWord (after (.new 4097) base) 1 = some 7 := by decide
/-- SG-3's bit in `base`; SG-2. -/
theorem test_set : readWord (after (.set 127 true) base) 1 = some 0x8000000000000007 ∧
    readWord (after (.set 127 true) base) 0 = some 5 := by decide
theorem test_set_out_of_range :
    (after (.set 128 true) base).rsp = some (Response.error .indexOutOfRange 128 2) := by decide
/-- Bit 2 of `BF[0]` = 5 is 1; bit 3 of `BF[1]` = 7 is 0. -/
theorem test_get : (after (.get 2) base).rsp = some (Response.okay 1) := by decide
theorem test_get_zero : (after (.get 67) base).rsp = some (Response.okay 0) := by decide
theorem test_readw : (after (.readw 1) base).rsp = some (Response.okay 7) := by decide
theorem test_readw_out_of_range : (after (.readw 2) base).rsp = some (Response.error .indexOutOfRange 2 2) := by decide
theorem test_writew : readWord (after (.writew 1 0xFF00000000000000) base) 1 = some 0xFF00000000000000 := by decide
theorem test_writew_keeps_other_word : readWord (after (.writew 1 9) base) 0 = some 5 := by decide
/-- L1-5, L1-6. -/
theorem test_packFix : (after (.packFix .w8 true 9 0x1AD) base).rsp = some (Response.okay 0xAD) := by decide
theorem test_packFix_overflow :
    (after (.packFix .w8 false 9 0x1AD) base).rsp = some (Response.error .overflow 9 8) := by decide
/-- U-FIX-1, U-FIX-2. -/
theorem test_unpackFix :
    (after (.unpackFix .w16 false 16 0x0000FFFF0000ABCD) base).rsp = some (Response.okay 0xABCD) := by decide
theorem test_unpackFix_masks_count : (after (.unpackFix .w32 false 3 0xFF) base).rsp = some (Response.okay 7) := by decide
/-- D-PACK-9, D-PACK-8. -/
theorem test_packDyn : (after (.packDyn 4 true 4097) base).wc = 64 ∧ (after (.packDyn 4 true 4097) base).dn = 4096 ∧
    readWord (after (.packDyn 4 true 4097) base) 0 = some 0 := by decide
theorem test_packDyn_overflow : after (.packDyn 4 false 4097) base =
    { base with rsp := some (Response.error .overflow 4097 4096) } := by decide
/-- P3 step 3: flags 64 to 69 of 70. -/
theorem test_dput : readWord (after (.dput 1 0xFFFFFFFFFFFFFFFF) base) 1 = some 0x3F := by decide
theorem test_dput_whole_chunk :
    readWord (after (.dput 0 0xFFFFFFFFFFFFFFFF) base) 0 = some 0xFFFFFFFFFFFFFFFF := by decide
/-- U-DYN-5, U-DYN-4. -/
theorem test_unpackDyn : (after (.unpackDyn 4 true 129) base).dn = 129 ∧ (after (.unpackDyn 4 true 129) base).wc = 2 ∧
    (after (.unpackDyn 4 true 129) base).rsp = some (Response.okay 3) := by decide
theorem test_unpackDyn_overflow :
    (after (.unpackDyn 4 false 129) base).rsp = some (Response.error .overflow 129 128) := by decide
/-- U-DYN-7's mask on `BF[1]` = 0xFF; U-DYN-8. -/
theorem test_dget :
    (after (.dget 1) { base with bf := base.bf.setIfInBounds 1 0xFF }).rsp = some (Response.okay 0x3F) := by decide
theorem test_dget_beyond : (after (.dget 65535) base).rsp = some (Response.okay 0) := by decide
/-- P3 step 7. -/
theorem test_stat : (after .stat base).rsp = some (Response.okay 0x0000000000460002) := by decide

/-! ## The step -/

/-- The state after a step, or the given one at a stop. -/
def stepped (s : State) : State :=
  match step s with
  | .next t => t
  | .fault _ => s
  | .refused _ => s

/-- L1-9 as the first step after reset. -/
theorem test_first_step_after_reset :
    (stepped (State.reset.withFetchWord 32 0x00800000)).wc = 2 ∧
      (stepped (State.reset.withFetchWord 32 0x00800000)).rsp = some (Response.okay 2) := by decide
/-- R42: any read right after reset is out of range (SG-10). -/
theorem test_get_after_reset :
    (stepped (State.reset.withFetchWord 32 0x00000002)).rsp = some (Response.error .indexOutOfRange 0 0) := by decide
/-- DEC-7. -/
theorem test_step_illegal :
    (stepped (base.withFetchWord 32 0x00400181)).rsp = some (Response.error .illegal 0x0181 0x0040) := by decide
theorem test_step_takes_response :
    (stepped { base with busy := true, rsp := some (Response.okay 9), inputs := [.take] }).taken =
      [Response.okay 9] := by decide

/-! ## Witnesses: each statement's hypotheses can be met -/

/-- A response is owed. -/
def owing (l : List HostInput) : State := { base with busy := true, rsp := some (Response.okay 9), inputs := l }

/-- WC beyond the array, as no run leaves it. -/
def corrupt : State := { base with wc := 65 }

theorem base_inv : base.Inv := ⟨by decide, rfl, fun _ => rfl⟩
theorem owing_inv (l : List HostInput) : (owing l).Inv := ⟨base_inv.wc_le, rfl, fun h => by cases h⟩

theorem witness_DecodeOfEncodeIsIdentity : (Instr.packDyn 7 true 65535).wellFormed = true := by decide
theorem witness_EncodeOfDecodeRestoresCommand : decode ⟨0xFFFF00B5, 3⟩ = .ok (.packFix .w64 true 65535 3) := by decide
theorem witness_HeaderIsInOneRowOrIllegal :
    decode ⟨9, 0⟩ = .ok .stat ∧ (∀ r ∈ tableRows, r.covers 0x0000000A = false) ∧
      10 ≤ ((0x0000000A : Header).extractLsb' 0 4).toNat := by decide
theorem witness_WidthSelectorChoosesRepresentation : 4 ≤ (4 : BitVec 3).toNat ∧ 4 ≤ (7 : BitVec 3).toNat := by decide
theorem witness_UnusedDataHasNoEffect : ∀ i, decode ⟨0x00400002, 1⟩ = .ok i → i.usesData = false := by
  intro i h
  have h' : decode ⟨0x00400002, 1⟩ = .ok (.get 64) := by decide
  rw [h'] at h
  cases h
  rfl
theorem witness_StepRunsDecodedCommand :
    let s : State := { base with inputs := [.send ⟨0x00410000, 0⟩] }
    s.busy = false ∧ s.inputs = .send ⟨0x00410000, 0⟩ :: [] ∧ decode ⟨0x00410000, 0⟩ = .ok (.new 65) := by decide
theorem witness_FetchWordRunsNext : decodeTableWord 32 0x00400101 = some (.set 64 true) := by decide
theorem witness_IllegalHeaderIsAnsweredIllegal :
    (∀ r ∈ tableRows, r.covers (⟨0x00400181, 0⟩ : Command).hdr = false) ∧ base.busy = false ∧
      5 ≤ (5 : BitVec 3).toNat ∧ 5 ≤ (7 : BitVec 3).toNat := by decide
theorem witness_BusyFromAcceptanceToTaking :
    base.busy = false ∧ (owing [.take]).busy = true ∧ (owing [.take]).rsp = some (Response.okay 9) ∧
      (owing [.send ⟨9, 0⟩]).busy = true ∧ (stepped (owing [.take])).busy = false ∧
      (stepped { base with inputs := [.send ⟨9, 0⟩] }).busy = true := by decide
theorem witness_ResetAbandonsCommandInProgress :
    (⟨true, true, ⟨9, 0⟩, true⟩ : InPins).rst = true ∧ (owing []).inputs = base.inputs ∧
      (owing []).taken = base.taken := by decide
theorem witness_ResetPutsResetValues : (owing [.reset]).inputs = .reset :: [] := by decide
theorem witness_OnlyCommandsAndResetChangeState :
    (stepped (base.withFetchWord 32 0x00410000)).bf ≠ base.bf := by decide
theorem witness_OnlyCommandsAndResetChangeState_edge :
    ∃ t, clockEdge (InPins.offer ⟨0x00410000, 0⟩) base = .next t ∧ ¬ t.SameBlock base := by
  refine ⟨_, rfl, ?_⟩
  intro h
  exact absurd h.1 (by decide)

theorem witness_NewAllocatesZeroedWords : (4096 : Arg).toNat ≤ 4096 ∧ 4096 < (4097 : Arg).toNat := by decide
theorem witness_SetWritesOneBit :
    (127 : Arg).toNat / 64 < base.wc.toNat ∧ base.wc.toNat ≤ 64 ∧ base.wc.toNat ≤ (128 : Arg).toNat / 64 := by decide
theorem witness_GetReadsOneBit :
    (0 : Arg).toNat / 64 < base.wc.toNat ∧ base.wc.toNat ≤ 64 ∧ base.wc.toNat ≤ (65535 : Arg).toNat / 64 := by decide
theorem witness_ReadwReadsOneWord :
    (1 : Arg).toNat < base.wc.toNat ∧ base.wc.toNat ≤ 64 ∧ base.wc.toNat ≤ (2 : Arg).toNat := by decide
theorem witness_WritewWritesOneWord :
    (0 : Arg).toNat < base.wc.toNat ∧ base.wc.toNat ≤ 64 ∧ base.wc.toNat ≤ (65535 : Arg).toNat := by decide
theorem witness_PackFixAnswersMaskedFlags :
    Width.w8 = widthOfSel 0 ∧ (8 : Arg).toNat ≤ widthBits .w8 ∧ widthBits .w8 < (9 : Arg).toNat := by decide
theorem witness_UnpackFixAnswersMaskedFlags :
    Width.w64 = widthOfSel 3 ∧ (64 : Arg).toNat ≤ widthBits .w64 ∧ widthBits .w64 < (65 : Arg).toNat := by decide
theorem witness_PackDynAllocatesForFlagCount :
    4 ≤ (4 : BitVec 3).toNat ∧ (4096 : Arg).toNat ≤ 4096 ∧ 4096 < (4097 : Arg).toNat := by decide
theorem witness_DputWritesMaskedChunk :
    (1 : Arg).toNat < base.wc.toNat ∧ base.wc.toNat ≤ 64 ∧ base.wc.toNat ≤ (2 : Arg).toNat := by decide
theorem witness_UnpackDynSetsFlagCount :
    4 ≤ (7 : BitVec 3).toNat ∧ (128 : Arg).toNat ≤ 64 * base.wc.toNat ∧ 64 * base.wc.toNat < (129 : Arg).toNat := by
  decide
theorem witness_DgetReadsMaskedChunk :
    (1 : Arg).toNat < base.wc.toNat ∧ base.wc.toNat ≤ 64 ∧ base.wc.toNat ≤ (2 : Arg).toNat := by decide

theorem witness_EveryInstructionCompletes : base.wc.toNat ≤ 64 ∧ State.reset.wc.toNat ≤ 64 := by decide
theorem witness_AccessBeyondArrayStops :
    64 ≤ (64 : Arg).toNat ∧ (64 : Arg).toNat < corrupt.wc.toNat ∧ 64 ≤ (4096 : Arg).toNat / 64 ∧
      (4096 : Arg).toNat / 64 < corrupt.wc.toNat := by decide
theorem witness_AccessBeyondArrayStops_fault :
    exec (.dget 64) corrupt = .fault .storageOverrun ∧ exec (.set 4096 true) corrupt = .fault .storageOverrun :=
  ⟨rfl, rfl⟩
theorem witness_OnlyNamedCommandsWriteRegisters :
    (after (.new 64) base).wc ≠ base.wc ∧ (after (.packDyn 4 false 5) base).dn ≠ base.dn ∧
      (after (.set 1 true) base).bf ≠ base.bf := by decide
theorem witness_CapacityIsFixedBetweenAllocations :
    ∃ t, perform ⟨0x00400000, 0⟩ base = .next t ∧ t.wc ≠ base.wc := ⟨_, rfl, by decide⟩
theorem witness_ErrorsWriteNothing :
    ∃ t r, perform ⟨0x10010000, 0⟩ base = .next t ∧ t.rsp = some r ∧ r.status ≠ .ok := ⟨_, _, rfl, rfl, by decide⟩
theorem witness_ResponseIsResultOrErrorInfo :
    (∃ t r, perform ⟨9, 0⟩ base = .next t ∧ t.rsp = some r ∧ r.status = .ok) ∧
      ∃ t r, perform ⟨0xA, 0⟩ base = .next t ∧ t.rsp = some r ∧ r.status ≠ .ok :=
  ⟨⟨_, _, rfl, rfl, rfl⟩, ⟨_, _, rfl, rfl, by decide⟩⟩
/-- The status a command answers in `base`. -/
def statusIn (h : Header) : Option Status :=
  match perform ⟨h, 0⟩ base with
  | .next t => t.rsp.map (·.status)
  | .fault _ => none
  | .refused _ => none
/-- Every arm, with success and with its own error at the first operand that has it. -/
theorem witness_OneErrorConditionPerCommand :
    (∀ p ∈ [((0x10000000 : Header), Status.ok), (0x10010000, .capacity), (0x007F0101, .ok), (0x00800101, .indexOutOfRange),
        (0x007F0002, .ok), (0x00800002, .indexOutOfRange), (0x00010003, .ok), (0x00020003, .indexOutOfRange)],
      statusIn p.1 = some p.2) ∧
    (∀ p ∈ [((0x00010004 : Header), Status.ok), (0x00020004, .indexOutOfRange), (0x00080005, .ok), (0x00090005, .overflow),
        (0x10000045, .ok), (0x10010045, .overflow), (0x00080006, .ok), (0x00090006, .overflow)],
      statusIn p.1 = some p.2) ∧
    (∀ p ∈ [((0x00800046 : Header), Status.ok), (0x00810046, .overflow), (0x00010007, .ok), (0x00020007, .indexOutOfRange),
        (0x00020008, .ok), (0x00000009, .ok), (0x0000000A, .illegal), (0x00820181, .illegal)],
      statusIn p.1 = some p.2) := by decide
theorem witness_ReadsArePureAndWritesIdempotent :
    (∃ t, exec (.dget 1) base = .next t) ∧ (∃ t, exec (.set 127 true) base = .next t) ∧ 0 ≠ (127 : Arg).toNat / 64 :=
  ⟨⟨_, rfl⟩, ⟨_, rfl⟩, by decide⟩
theorem witness_RewritingSameValueChangesNothing :
    (∃ t, exec (.set 2 true) base = .next t) ∧ readBit base (2 : Arg).toNat = true ∧
      (∃ t, exec (.writew 1 7) base = .next t) ∧ readWord base (1 : Arg).toNat = some 7 :=
  ⟨⟨_, rfl⟩, by decide, ⟨_, rfl⟩, by decide⟩
theorem witness_GetAfterSet :
    base.wc.toNat ≤ 64 ∧ (127 : Arg).toNat / 64 < base.wc.toNat ∧ (128 : Arg) ≠ 127 := by decide
theorem witness_FixedRoundTrip :
    (16 : Arg).toNat ≤ widthBits .w16 ∧ widthBits .w16 < (17 : Arg).toNat := by decide
theorem witness_OverflowCheckIsSymmetric :
    (4096 : Arg).toNat ≤ 4096 ∧ ∃ t, exec (.packDyn 4 false 4096) base = .next t := ⟨by decide, _, rfl⟩

theorem witness_StepKeepsInvariant : base.Inv ∧ ∃ t, step base = .next t := ⟨base_inv, _, rfl⟩
theorem witness_ClockEdgeKeepsInvariant : (owing []).Inv ∧ ∃ t, clockEdge InPins.ready (owing []) = .next t :=
  ⟨owing_inv [], _, rfl⟩
theorem witness_InvariantStatesNeverStop : base.Inv ∧ ¬ corrupt.Inv := ⟨base_inv, fun h => absurd h.wc_le (by decide)⟩
theorem witness_StepRespectsObservation :
    State.ObsEq base { base with bf := base.bf.setIfInBounds 2 1 } ∧ base.bf ≠ base.bf.setIfInBounds 2 1 :=
  ⟨⟨rfl, rfl, rfl, rfl, rfl, rfl, by decide⟩, by decide⟩
theorem witness_ResetContentsAreUnobservable : State.reset.Inv ∧ State.reset.wc = 0 :=
  ⟨⟨by decide, rfl, fun _ => rfl⟩, rfl⟩
theorem witness_ResponsesAreFoldOfCommands : base.Inv ∧ base.busy = false := ⟨base_inv, rfl⟩
theorem witness_ClockEdgesRefineSteps :
    base.busy = false ∧ (InPins.offer ⟨9, 0⟩).rst = false ∧ (InPins.offer ⟨9, 0⟩).cmdValid = true ∧
      (∃ mid : List InPins, mid.length = latencyOf ⟨9, 0⟩ base ∧ ∀ p ∈ mid, p.rst = false) ∧
      InPins.ready.rst = false ∧ InPins.ready.rspReady = true :=
  ⟨rfl, rfl, rfl, ⟨List.replicate _ InPins.ready, List.length_replicate .., fun _ h => (List.eq_of_mem_replicate h) ▸ rfl⟩,
    rfl, rfl⟩
theorem witness_EveryAcceptedCommandIsAnswered :
    base.Inv ∧ base.busy = false ∧ (InPins.offer ⟨9, 0⟩).rst = false ∧ (InPins.offer ⟨9, 0⟩).cmdValid = true :=
  ⟨base_inv, rfl, rfl, rfl⟩
theorem witness_OfferedResponseIsHeldUntilTaken :
    outPins false (owing []) = ⟨false, true, some (Response.okay 9)⟩ ∧ InPins.ready.rspReady = true ∧
      (InPins.offer ⟨9, 0⟩).rspReady = false := by decide
theorem witness_PackBySetEqualsPackByChunk :
    base.Inv ∧ base.busy = false ∧ (List.replicate 70 true).length = (70 : Arg).toNat ∧
      (List.replicate 70 true).length ≤ 4096 :=
  ⟨base_inv, rfl, by decide, by decide⟩
theorem witness_DynamicRoundTrip :
    base.Inv ∧ base.busy = false ∧ (List.replicate 70 true).length < 65536 ∧ (List.replicate 70 true).length ≤ 4096 :=
  ⟨base_inv, rfl, by decide, by decide⟩
theorem witness_DynamicRoundTrip_truncating :
    (List.replicate 4097 true).length < 65536 ∧ 4096 < (List.replicate 4097 true).length := by
  rw [List.length_replicate]
  decide
theorem witness_FixedProceduresGiveTheirResults :
    base.Inv ∧ base.busy = false ∧ (List.replicate 8 true).length ≤ widthBits .w8 ∧ (9 : Nat) < 65536 :=
  ⟨base_inv, rfl, by decide, by decide⟩
theorem witness_LatencyIsThatOfTheCommand :
    base.Inv ∧ base.busy = false ∧ (InPins.offer ⟨9, 0⟩).rst = false ∧ (InPins.offer ⟨9, 0⟩).cmdValid = true ∧
      ∃ mid : List InPins, mid.length = latencyOf ⟨9, 0⟩ base ∧ ∀ p ∈ mid, p.rst = false :=
  ⟨base_inv, rfl, rfl, rfl, List.replicate _ InPins.ready, List.length_replicate .., fun _ h => (List.eq_of_mem_replicate h) ▸ rfl⟩

/-! ## Host procedures -/

/-- How a procedure ends in `base`, and how many commands it sent. -/
def ends {α : Type} (p : Proc α) : Except HostFailure α × Nat := ((p.run base).1, (p.run base).2.accepted)

/-- L1-6: nine flags in eight bits, truncated; back as nine flags, the ninth false. -/
theorem test_pack_fixed :
    (ends (packFixed .w8 [true, false, true, true, false, true, false, true, true] true)) = (.ok 0xAD, 1) := by
  decide +kernel
theorem test_unpack_fixed :
    (ends (unpackFixed .w8 0xAD 9 true)) = (.ok [true, false, true, true, false, true, false, true, false], 1) := by decide
/-- L1-5: without overflow allowed it ends at its one command. -/
theorem test_pack_fixed_fails :
    (ends (packFixed .w8 (List.replicate 9 true) false)) = (.error (.errorResponse (Response.error .overflow 9 8)), 1) := by
  decide +kernel
/-- Three flags through the dynamic representation, and back. -/
theorem test_pack_auto : (ends (packDynamic [true, false, true] false)) = (.ok [5], 3) := by decide +kernel
theorem test_unpack_auto : (ends (unpackDynamic [5] 3 false)) = (.ok [true, false, true], 4) := by decide
/-- 65 flags do not fit one word: the procedure ends at UNPACK, its third command, and sends no DGET. -/
theorem test_unpack_auto_fails :
    (ends (unpackDynamic [5] 65 false)) = (.error (.errorResponse (Response.error .overflow 65 64)), 3) := by
  decide +kernel
/-- A count no command can carry: nothing is sent (log 19). -/
theorem test_unpack_unsendable : (ends (unpackDynamic [5] 65536 true)) = (.error (.unsendable 65536), 0) := by
  decide +kernel

theorem run_of_ends {α : Type} {p : Proc α} {e : Except HostFailure α} {n : Nat} (h : ends p = (e, n)) :
    p.run base = (e, (p.run base).2) := 
  Prod.ext (show (ends p).1 = e by rw [h]) rfl

/-- Each of its four hypotheses is met by a run above. -/
theorem witness_HostProceduresEndAtFirstError :
    base.Inv ∧ base.busy = false ∧
    (∃ t r, (pack (List.replicate 9 true) (.fixed .w8) false).run base = (.error (.errorResponse r), t)) ∧
    (∃ t r, (unpack .auto ([5] : List Word) 65 false).run base = (.error (.errorResponse r), t)) ∧
    (∃ t q, (pack [true, false, true] .auto false).run base = (.ok q, t)) ∧
    (∃ t g, (unpack .auto ([5] : List Word) 3 false).run base = (.ok g, t)) :=
  ⟨base_inv, rfl, ⟨_, _, run_of_ends test_pack_fixed_fails⟩, ⟨_, _, run_of_ends test_unpack_auto_fails⟩,
    ⟨_, _, run_of_ends test_pack_auto⟩, ⟨_, _, run_of_ends test_unpack_auto⟩⟩

/-- HostProceduresFail: the numbers of each clause, at the first value that has it. -/
theorem witness_HostProceduresFail :
    base.Inv ∧ base.busy = false ∧ widthBits .w64 < (List.replicate 65 true).length ∧
      4096 < (List.replicate 4097 true).length ∧ 64 < (List.replicate 65 (0 : Word)).length ∧
      64 * (List.replicate 65 (0 : Word)).length < 65536 ∧ (List.replicate 64 (0 : Word)).length ≤ 64 ∧
      64 * (List.replicate 64 (0 : Word)).length < 4097 ∧ 65536 ≤ (List.replicate 65536 true).length ∧
      65536 ≤ 64 * (List.replicate 1024 (0 : Word)).length := by
  simp only [List.length_replicate]
  exact ⟨base_inv, rfl, by decide⟩

end Sys2Proof.Tests
end

section
/-! SUPPORT. Everything a clock edge can do, and which operations leave `BF`, `WC` and `DN` alone. -/

namespace Sys2Proof.Machine

theorem step_eq_handshake (s : State) : step s = handshake s := rfl

/-- A command that decodes is performed as its instruction. -/
theorem perform_of_decode {c : Command} {i : Instr} (h : decode c = .ok i) (s : State) : perform c s = exec i s := by
  simp only [perform, h]

/-- Everything a clock edge can do. -/
theorem clockEdge_cases (p : InPins) (s : State) :
    (p.rst = true ∧ clockEdge p s = .next (resetBlock s)) ∨
    (p.rst = false ∧ s.busy = true ∧ s.wait = 0 ∧ p.rspReady = true ∧ clockEdge p s = .next (takeResponse s)) ∨
    (p.rst = false ∧ s.busy = true ∧ s.wait = 0 ∧ p.rspReady = false ∧ clockEdge p s = .next s) ∨
    (p.rst = false ∧ s.busy = true ∧ s.wait ≠ 0 ∧ clockEdge p s = .next { s with wait := s.wait - 1 }) ∨
    (p.rst = false ∧ s.busy = false ∧ p.cmdValid = true ∧ clockEdge p s = accept p.cmd (latencyOf p.cmd s) s) ∨
    (p.rst = false ∧ s.busy = false ∧ p.cmdValid = false ∧ clockEdge p s = .next s) := by
  cases hr : p.rst
  case true => simp [clockEdge, hr]
  case false =>
    cases hb : s.busy
    case true =>
      by_cases hw : s.wait = 0
      · cases hq : p.rspReady <;> simp [clockEdge, hr, hb, hw, hq]
      · simp [clockEdge, hr, hb, hw]
    case false => cases hv : p.cmdValid <;> simp [clockEdge, hr, hb, hv]

/-- The edge at which an idle block accepts. -/
theorem clockEdge_accept {p : InPins} {s : State} (hr : p.rst = false) (hb : s.busy = false) (hv : p.cmdValid = true) :
    clockEdge p s = accept p.cmd (latencyOf p.cmd s) s := by
  simp [clockEdge, hr, hb, hv]

theorem State.SameBlock.refl (s : State) : s.SameBlock s := ⟨rfl, rfl, rfl⟩

/-- Taking a response is the port's affair alone. -/
theorem takeResponse_sameBlock (s : State) : (takeResponse s).SameBlock s := by
  unfold takeResponse
  split
  · exact ⟨rfl, rfl, rfl⟩
  · exact .refl s

end Sys2Proof.Machine
end

section
/-! SUPPORT. With a legal `WC` (10_state.md R23) nothing stops: the one fault, `storageOverrun`, needs `WC` > 64 (log 3). -/

namespace Sys2Proof.Machine

theorem not_stops_iff (r : Result) : ¬ Stops r ↔ ∃ t, r = .next t := by
  simp [Stops]

theorem withCapacity_completes (n : Arg) (cap : Nat) (ovf : Bool) (s : State) {go : Result}
    (hgo : ∃ t, go = .next t) : ∃ t, withCapacity n cap ovf s go = .next t := by
  rcases withCapacity_cases n cap ovf s go with ⟨_, _, e⟩ | ⟨_, e⟩
  · exact ⟨_, e⟩
  · rw [e]; exact hgo

theorem execNew_completes (size : Arg) (s : State) : ∃ t, execNew size s = .next t := by
  unfold execNew
  split
  · exact ⟨_, rfl⟩
  · exact ⟨_, rfl⟩

section
variable {s : State} (hwc : s.wc.toNat ≤ 64)
include hwc

/-- The capacity check lets through only words the array has. -/
theorem withWord_completes (info : Arg) (k : Nat) {go : Word → Result} (hgo : ∀ w, ∃ t, go w = .next t) :
    ∃ t, withWord info k s go = .next t := by
  rcases withWord_cases info k s go with ⟨_, e⟩ | ⟨_, w, _, e⟩ | ⟨hlt, hge, _⟩
  · exact ⟨_, e⟩
  · rw [e]; exact hgo w
  · omega

/-- DGET's own check lets through only words the array has. -/
theorem execDget_completes (k : Arg) : ∃ t, execDget k s = .next t := by
  unfold execDget
  split
  · exact ⟨_, rfl⟩
  · next hin =>
    rw [outOfRange_iff] at hin
    obtain ⟨w, hw⟩ := readWord_eq_some_of_lt s (k := k.toNat) (by omega)
    rw [hw]; exact ⟨_, rfl⟩

theorem exec_completes (i : Instr) : ∃ t, exec i s = .next t := by
  cases i with
  | new size => exact execNew_completes size s
  | set ix b => exact withWord_completes hwc _ _ fun _ => ⟨_, rfl⟩
  | get ix => exact withWord_completes hwc _ _ fun _ => ⟨_, rfl⟩
  | readw k => exact withWord_completes hwc _ _ fun _ => ⟨_, rfl⟩
  | writew k d => exact withWord_completes hwc _ _ fun _ => ⟨_, rfl⟩
  | packFix w ovf n d => exact withCapacity_completes _ _ _ _ ⟨_, rfl⟩
  | packDyn wsel ovf n => exact withCapacity_completes _ _ _ _ ⟨_, rfl⟩
  | unpackFix w ovf n p => exact withCapacity_completes _ _ _ _ ⟨_, rfl⟩
  | unpackDyn wsel ovf n => exact withCapacity_completes _ _ _ _ ⟨_, rfl⟩
  | dput k d => exact withWord_completes hwc _ _ fun _ => ⟨_, rfl⟩
  | dget k => exact execDget_completes hwc k
  | stat => exact ⟨_, rfl⟩

theorem perform_completes (c : Command) : ∃ t, perform c s = .next t := by
  rcases perform_cases c s with ⟨i, _, e⟩ | ⟨_, _, e⟩
  · rw [e]; exact exec_completes hwc i
  · exact ⟨_, e⟩

theorem accept_completes (c : Command) (lat : Nat) : ∃ t, accept c lat s = .next t :=
  perform_completes (s := { s with busy := true, wait := lat, accepted := s.accepted + 1 }) hwc c

theorem step_completes : ∃ t, step s = .next t := by
  rw [step_eq_handshake]
  rcases handshake_cases s with
    ⟨_, e⟩ | ⟨_, _, e⟩ | ⟨_, _, e⟩ | ⟨_, _, e⟩ | ⟨_, _, _, _, e⟩ | ⟨c, rest, _, _, e⟩
  · exact ⟨_, e⟩
  · exact ⟨_, e⟩
  · exact ⟨_, e⟩
  · exact ⟨_, e⟩
  · exact ⟨_, e⟩
  · rw [e]; exact accept_completes (s := { s with inputs := rest }) hwc c 0

theorem clockEdge_completes (p : InPins) : ∃ t, clockEdge p s = .next t := by
  rcases clockEdge_cases p s with
    ⟨_, e⟩ | ⟨_, _, _, _, e⟩ | ⟨_, _, _, _, e⟩ | ⟨_, _, _, e⟩ | ⟨_, _, _, e⟩ | ⟨_, _, _, e⟩
  · exact ⟨_, e⟩
  · exact ⟨_, e⟩
  · exact ⟨_, e⟩
  · exact ⟨_, e⟩
  · rw [e]; exact accept_completes hwc p.cmd _
  · exact ⟨_, e⟩

end

end Sys2Proof.Machine
end

section
/-! PROOFS. The statements of 00_scope.md: what a step runs, what changes the block, that it never stops and always answers. -/

namespace Sys2Proof.Machine

/-- Settles O7: the offer transfers, and `perform` runs what it decodes to. -/
theorem stepRunsDecodedCommand : Obligations.StepRunsDecodedCommand := by
  intro s c rest i hb hin hd
  rw [step_eq_handshake, handshake_send hin hb, accept, perform_of_decode hd]

/-- Settles O13: each other case of a step or of an edge touches the port's fields only. -/
theorem onlyCommandsAndResetChangeState : Obligations.OnlyCommandsAndResetChangeState := by
  constructor
  · intro s t h hne
    rw [step_eq_handshake] at h
    rcases handshake_cases s with
      ⟨_, e⟩ | ⟨_, _, e⟩ | ⟨rest, hin, _⟩ | ⟨rest, _, e⟩ | ⟨_, _, _, _, e⟩ | ⟨c, rest, hin, hb, _⟩
    · cases e.symm.trans h; exact (hne (.refl s)).elim
    · cases e.symm.trans h; exact (hne ⟨rfl, rfl, rfl⟩).elim
    · exact .inl ⟨rest, hin⟩
    · cases e.symm.trans h; exact (hne (takeResponse_sameBlock { s with inputs := rest })).elim
    · cases e.symm.trans h; exact (hne (.refl s)).elim
    · exact .inr ⟨hb, c, rest, hin⟩
  · intro p s t h hne
    rcases clockEdge_cases p s with
      ⟨hr, _⟩ | ⟨_, _, _, _, e⟩ | ⟨_, _, _, _, e⟩ | ⟨_, _, _, e⟩ | ⟨_, hb, hv, _⟩ | ⟨_, _, _, e⟩
    · exact .inl hr
    · cases e.symm.trans h; exact (hne (takeResponse_sameBlock s)).elim
    · cases e.symm.trans h; exact (hne (.refl s)).elim
    · cases e.symm.trans h; exact (hne ⟨rfl, rfl, rfl⟩).elim
    · exact .inr ⟨hb, hv⟩
    · cases e.symm.trans h; exact (hne (.refl s)).elim

/-- Settles O26: no word index that passes its check lies beyond the array, and a next state carries a response. -/
theorem everyInstructionCompletes : Obligations.EveryInstructionCompletes := by
  intro i s hwc
  obtain ⟨t, ht⟩ := exec_completes hwc i
  obtain ⟨_, _, rfl, hport, _⟩ := exec_next ht
  exact ⟨_, ht, rfl, hport⟩

/-- Settles O42: of the invariant only the bound on `WC` matters here. -/
theorem invariantStatesNeverStop : Obligations.InvariantStatesNeverStop := by
  intro s hs
  exact ⟨(not_stops_iff _).mpr (step_completes hs.wc_le), fun p => (not_stops_iff _).mpr (clockEdge_completes hs.wc_le p)⟩

/-- Settles O47: the number of edges is the command's latency, and `wait_edges` says nothing in them disturbs the
response that `perform` gave. -/
theorem everyAcceptedCommandIsAnswered : Obligations.EveryAcceptedCommandIsAnswered := by
  intro s first hs hb hr hv
  obtain ⟨u, hu⟩ := perform_completes hs.wc_le first.cmd
  obtain ⟨r, hrsp, _⟩ := perform_next hu
  refine ⟨latencyOf first.cmd s, r, u, hu, hrsp, fun mid hlen hmid => ?_⟩
  have haccept := clockEdge_accept hr hb hv
  rw [accept_eq, hu, mapNext_next] at haccept
  rw [clockEdges, haccept, andThen_next, wait_edges mid _ rfl hlen.symm hmid]
  exact ⟨_, rfl, by simp [outPins, rspValid, State.setPort, hrsp]⟩

end Sys2Proof.Machine
end

section
/-! SUPPORT. Everything an instruction can write, and when it faults. -/

namespace Sys2Proof.Machine

/-! ## Equations -/

theorem execNew_of_gt {size : Arg} (h : 4096 < size.toNat) (s : State) :
    execNew size s = .next (respond .capacity 0 size (BitVec.ofNat 16 Config.maxBits) s) := by
  simp [execNew, overCapacity, h, raise]

theorem execNew_of_le {size : Arg} (h : size.toNat ≤ 4096) (s : State) :
    execNew size s = respondOK (wcData (allocate size.toNat s)) (allocate size.toNat s) := by
  simp [execNew, overCapacity, Nat.not_lt.mpr h]

theorem withWord_of_overrun {info : Arg} {k : Nat} {s : State} {go : Word → Result} (h64 : 64 ≤ k)
    (hlt : k < s.wc.toNat) : withWord info k s go = .fault .storageOverrun := by
  simp [withWord, outOfRange, Nat.not_le.mpr hlt, readWord_eq_none_of_ge s h64]

theorem execDget_of_ge {k : Arg} {s : State} (h : s.wc.toNat ≤ k.toNat) : execDget k s = respondOK 0 s := by
  simp [execDget, outOfRange, h]

theorem execDget_of_lt {k : Arg} {s : State} {w : Word} (h : k.toNat < s.wc.toNat)
    (hw : readWord s k.toNat = some w) :
    execDget k s = respondOK (w &&& lowmask (chunkFlags s.dn.toNat k.toNat)) s := by
  simp [execDget, outOfRange, Nat.not_le.mpr h, hw]

theorem execDget_of_overrun {k : Arg} {s : State} (h64 : 64 ≤ k.toNat) (hlt : k.toNat < s.wc.toNat) :
    execDget k s = .fault .storageOverrun := by
  simp [execDget, outOfRange, Nat.not_le.mpr hlt, readWord_eq_none_of_ge s h64]

/-- Everything DGET can do. -/
theorem execDget_cases (k : Arg) (s : State) :
    (∃ d, execDget k s = respondOK d s) ∨
    (64 ≤ k.toNat ∧ k.toNat < s.wc.toNat ∧ execDget k s = .fault .storageOverrun) := by
  by_cases hge : s.wc.toNat ≤ k.toNat
  · exact .inl ⟨_, execDget_of_ge hge⟩
  · by_cases h64 : 64 ≤ k.toNat
    · exact .inr ⟨h64, by omega, execDget_of_overrun h64 (by omega)⟩
    · obtain ⟨w, hw⟩ := readWord_eq_some_of_lt s (Nat.lt_of_not_le h64)
      exact .inl ⟨_, execDget_of_lt (by omega) hw⟩

/-! ## Faults -/

theorem withWord_fault {info : Arg} {k : Nat} {s : State} {go : Word → Result} {e : Fault}
    (hgo : ∀ w, ∃ t, go w = .next t) (h : withWord info k s go = .fault e) : 64 ≤ k ∧ k < s.wc.toNat := by
  rcases withWord_cases info k s go with ⟨_, eq⟩ | ⟨_, w, _, eq⟩ | ⟨hlt, h64, _⟩
  · cases eq.symm.trans h
  · obtain ⟨t, ht⟩ := hgo w
    cases ht.symm.trans (eq.symm.trans h)
  · exact ⟨h64, hlt⟩

theorem withCapacity_ne_fault {n : Arg} {cap : Nat} {ovf : Bool} {s : State} {go : Result} {e : Fault}
    (hgo : ∃ t, go = .next t) : withCapacity n cap ovf s go ≠ .fault e := by
  intro h
  obtain ⟨t, ht⟩ := withCapacity_completes n cap ovf s hgo
  cases ht.symm.trans h

theorem execDget_fault {k : Arg} {s : State} {e : Fault} (h : execDget k s = .fault e) :
    64 ≤ k.toNat ∧ k.toNat < s.wc.toNat := by
  rcases execDget_cases k s with ⟨_, eq⟩ | ⟨h64, hlt, _⟩
  · cases eq.symm.trans h
  · exact ⟨h64, hlt⟩

/-! ## Writes -/

theorem withWord_next {info : Arg} {k : Nat} {s t : State} {go : Word → Result}
    (h : withWord info k s go = .next t) : t.SameBlock s ∨ ∃ w, go w = .next t := by
  rcases withWord_cases info k s go with ⟨_, e⟩ | ⟨_, w, _, e⟩ | ⟨_, _, e⟩
  · cases e.symm.trans h; exact .inl ⟨rfl, rfl, rfl⟩
  · exact .inr ⟨w, e.symm.trans h⟩
  · cases e.symm.trans h

theorem withCapacity_next {n : Arg} {cap : Nat} {ovf : Bool} {s t : State} {go : Result}
    (h : withCapacity n cap ovf s go = .next t) : t.SameBlock s ∨ go = .next t := by
  rcases withCapacity_cases n cap ovf s go with ⟨_, _, e⟩ | ⟨_, e⟩
  · cases e.symm.trans h; exact .inl ⟨rfl, rfl, rfl⟩
  · exact .inr (e.symm.trans h)

/-- A command that only reads its word leaves the block. -/
theorem withWord_sameBlock {info : Arg} {k : Nat} {s t : State} {f : Word → Word}
    (h : withWord info k s (fun w => respondOK (f w) s) = .next t) : t.SameBlock s := by
  rcases withWord_next h with hsame | ⟨w, hw⟩
  · exact hsame
  · cases hw; exact ⟨rfl, rfl, rfl⟩

/-- A command that writes its word writes nothing else. -/
theorem withWord_writeWord {info : Arg} {k : Nat} {s t : State} {f : Word → Word}
    (h : withWord info k s (fun w => respondOK 0 (writeWord k (f w) s)) = .next t) :
    t.SameBlock s ∨ ∃ v, t.SameBlock (writeWord k v s) := by
  rcases withWord_next h with hsame | ⟨w, hw⟩
  · exact .inl hsame
  · cases hw; exact .inr ⟨f w, rfl, rfl, rfl⟩

theorem fixedCodec_sameBlock {w : Width} {ovf : Bool} {n : Arg} {d : Word} {s t : State}
    (h : fixedCodec w ovf n d s = .next t) : t.SameBlock s := by
  rcases withCapacity_next h with hsame | hgo
  · exact hsame
  · cases hgo; exact ⟨rfl, rfl, rfl⟩

/-- The instruction writes one word of the storage. -/
def WritesWord (i : Instr) : Prop :=
  (∃ ix b, i = .set ix b) ∨ (∃ k d, i = .writew k d) ∨ ∃ k d, i = .dput k d

/-- Everything an instruction can write. -/
theorem exec_writes {i : Instr} {s t : State} (h : exec i s = .next t) :
    t.SameBlock s ∨
    (∃ size : Arg, i = .new size ∧ size.toNat ≤ 4096 ∧ t.SameBlock (allocate size.toNat s)) ∨
    (∃ q o n, i = .packDyn q o n ∧
      t.SameBlock (writeDN (min n.toNat 4096) (allocate (min n.toNat 4096) s))) ∨
    (∃ q o n, i = .unpackDyn q o n ∧ t.SameBlock (writeDN n.toNat s)) ∨
    (WritesWord i ∧ ∃ k v, t.SameBlock (writeWord k v s)) := by
  cases i with
  | new size =>
    change execNew size s = _ at h
    by_cases hsize : size.toNat ≤ 4096
    · rw [execNew_of_le hsize] at h
      cases h; exact .inr (.inl ⟨size, rfl, hsize, rfl, rfl, rfl⟩)
    · rw [execNew_of_gt (Nat.lt_of_not_le hsize)] at h
      cases h; exact .inl ⟨rfl, rfl, rfl⟩
  | set ix b =>
    rcases withWord_writeWord h with hsame | ⟨v, hv⟩
    · exact .inl hsame
    · exact .inr (.inr (.inr (.inr ⟨.inl ⟨ix, b, rfl⟩, _, v, hv⟩)))
  | get ix => exact .inl (withWord_sameBlock h)
  | readw k => exact .inl (withWord_sameBlock h)
  | writew k d =>
    rcases withWord_writeWord (f := fun _ => d) h with hsame | ⟨v, hv⟩
    · exact .inl hsame
    · exact .inr (.inr (.inr (.inr ⟨.inr (.inl ⟨k, d, rfl⟩), _, v, hv⟩)))
  | packFix w ovf n d => exact .inl (fixedCodec_sameBlock h)
  | packDyn q o n =>
    rcases withCapacity_next h with hsame | hgo
    · exact .inl hsame
    · cases hgo; exact .inr (.inr (.inl ⟨q, o, n, rfl, rfl, rfl, rfl⟩))
  | unpackFix w ovf n p => exact .inl (fixedCodec_sameBlock h)
  | unpackDyn q o n =>
    rcases withCapacity_next h with hsame | hgo
    · exact .inl hsame
    · cases hgo; exact .inr (.inr (.inr (.inl ⟨q, o, n, rfl, rfl, rfl, rfl⟩)))
  | dput k d =>
    rcases withWord_writeWord (f := fun _ => d &&& lowmask (chunkFlags s.dn.toNat k.toNat)) h with hsame | ⟨v, hv⟩
    · exact .inl hsame
    · exact .inr (.inr (.inr (.inr ⟨.inr (.inr ⟨k, d, rfl⟩), _, v, hv⟩)))
  | dget k =>
    rcases execDget_cases k s with ⟨_, e⟩ | ⟨_, _, e⟩
    · cases e.symm.trans h; exact .inl ⟨rfl, rfl, rfl⟩
    · cases e.symm.trans h
  | stat => cases h; exact .inl ⟨rfl, rfl, rfl⟩

end Sys2Proof.Machine
end

section
/-! SUPPORT. What keeps the invariant (10_state.md R24, R29), operation by operation. -/

namespace Sys2Proof.Machine

/-! ## `WC` stays legal -/

/-- 4096 bits fit the 64 words of the array. -/
theorem allocate_wc_le {n : Nat} (h : n ≤ 4096) (s : State) : (allocate n s).wc.toNat ≤ 64 := by
  rw [allocate_wc, wordsFor_eq, BitVec.toNat_ofNat]
  omega

theorem exec_wc_le {i : Instr} {s t : State} (hwc : s.wc.toNat ≤ 64) (h : exec i s = .next t) :
    t.wc.toNat ≤ 64 := by
  rcases exec_writes h with ⟨_, e, _⟩ | ⟨size, _, hsize, _, e, _⟩ | ⟨_, _, n, _, _, e, _⟩ |
    ⟨_, _, _, _, _, e, _⟩ | ⟨_, _, _, _, e, _⟩
  · rw [← e]; exact hwc
  · rw [← e]; exact allocate_wc_le hsize s
  · rw [← e]; exact allocate_wc_le (Nat.min_le_right _ _) s
  · rw [← e]; exact hwc
  · rw [← e]; exact hwc

theorem perform_wc_le {c : Command} {s t : State} (hwc : s.wc.toNat ≤ 64) (h : perform c s = .next t) :
    t.wc.toNat ≤ 64 := by
  rcases perform_cases c s with ⟨i, _, e⟩ | ⟨_, _, e⟩
  · exact exec_wc_le hwc (e.symm.trans h)
  · cases e.symm.trans h; exact hwc

/-! ## The operations of the port -/

/-- An accepted command leaves the block busy and owing its response. -/
theorem accept_next {c : Command} {lat : Nat} {s t : State} (h : accept c lat s = .next t) :
    t.busy = true ∧ t.rsp.isSome = true := by
  obtain ⟨r, hr, hbusy, _⟩ := perform_next h
  exact ⟨hbusy.symm, by rw [hr]; rfl⟩

theorem accept_inv {c : Command} {lat : Nat} {s t : State} (hwc : s.wc.toNat ≤ 64)
    (h : accept c lat s = .next t) : t.Inv := by
  obtain ⟨hbusy, hrsp⟩ := accept_next h
  exact ⟨perform_wc_le (s := { s with busy := true, wait := lat, accepted := s.accepted + 1 }) hwc h,
    hrsp.trans hbusy.symm, fun hidle => by simp [hbusy] at hidle⟩

theorem resetBlock_inv (s : State) : (resetBlock s).Inv := ⟨Nat.zero_le _, rfl, fun _ => rfl⟩

theorem State.Inv.setInputs {s : State} (hs : s.Inv) (l : List HostInput) : State.Inv { s with inputs := l } :=
  ⟨hs.wc_le, hs.rsp_busy, hs.idle⟩

/-- While the block is busy any latency may be left. -/
theorem State.Inv.setWait {s : State} (hs : s.Inv) (hb : s.busy = true) (m : Nat) : State.Inv { s with wait := m } :=
  ⟨hs.wc_le, hs.rsp_busy, fun hidle => by simp [hb] at hidle⟩

theorem takeResponse_inv {s : State} (hs : s.Inv) : (takeResponse s).Inv := by
  cases hb : s.busy with
  | false => rw [takeResponse_of_idle hb]; exact hs
  | true =>
    obtain ⟨r, hr⟩ := Option.isSome_iff_exists.mp (hs.rsp_busy.trans hb)
    rw [takeResponse_of_busy hb hr]
    exact ⟨hs.wc_le, rfl, fun _ => rfl⟩

end Sys2Proof.Machine
end

section
/-! SUPPORT. No operation tells apart two states that differ only in what cannot be observed (10_state.md R31): all that is
read of the storage is a word below `WC`, and all that raises `WC` clears the storage. -/

namespace Sys2Proof.Machine

/-- Both results are next states, and the two cannot be told apart. -/
def AnswerAlike (r r' : Result) : Prop := ∃ t t', r = .next t ∧ r' = .next t' ∧ State.ObsEq t t'

theorem State.ObsEq.answerAlike {t t' : State} (h : State.ObsEq t t') : AnswerAlike (.next t) (.next t') :=
  ⟨t, t', rfl, rfl, h⟩

theorem State.ObsEq.busy {s s' : State} (h : State.ObsEq s s') : s'.busy = s.busy := by
  obtain ⟨_, _, hbusy, _⟩ := h
  exact hbusy

theorem State.ObsEq.inputs {s s' : State} (h : State.ObsEq s s') : s'.inputs = s.inputs := by
  obtain ⟨_, _, _, _, hin, _⟩ := h
  exact hin

/-! ## Storage, registers and response -/

theorem respond_obsEq {s s' : State} (h : State.ObsEq s s') (st : Status) (d : Word) (i0 i1 : Arg) :
    State.ObsEq (respond st d i0 i1 s) (respond st d i0 i1 s') := by
  obtain ⟨hwc, hdn, hbusy, _, hin, htaken, hwords⟩ := h
  exact ⟨hwc, hdn, hbusy, rfl, hin, htaken, hwords⟩

theorem respondOK_alike {s s' : State} (h : State.ObsEq s s') (d : Word) :
    AnswerAlike (respondOK d s) (respondOK d s') :=
  (respond_obsEq h .ok d 0 0).answerAlike

theorem writeWord_obsEq {s s' : State} (h : State.ObsEq s s') (k : Nat) (v : Word) :
    State.ObsEq (writeWord k v s) (writeWord k v s') := by
  obtain ⟨hwc, hdn, hbusy, hrsp, hin, htaken, hwords⟩ := h
  refine ⟨hwc, hdn, hbusy, hrsp, hin, htaken, fun j hj => ?_⟩
  rw [readWord_writeWord, readWord_writeWord, hwords j hj]

theorem writeDN_obsEq {s s' : State} (h : State.ObsEq s s') (n : Nat) :
    State.ObsEq (writeDN n s) (writeDN n s') := by
  obtain ⟨hwc, _, hbusy, hrsp, hin, htaken, hwords⟩ := h
  exact ⟨hwc, rfl, hbusy, hrsp, hin, htaken, hwords⟩

/-- The words an allocation brings below `WC` are 0 in both states. -/
theorem allocate_obsEq {s s' : State} (h : State.ObsEq s s') (n : Nat) :
    State.ObsEq (allocate n s) (allocate n s') := by
  obtain ⟨_, hdn, hbusy, hrsp, hin, htaken, _⟩ := h
  exact ⟨rfl, hdn, hbusy, hrsp, hin, htaken, fun k _ => readWord_congr rfl k⟩

/-! ## Checks -/

theorem withCapacity_alike {s s' : State} (h : State.ObsEq s s') (n : Arg) (cap : Nat) (ovf : Bool)
    {go go' : Result} (hgo : AnswerAlike go go') :
    AnswerAlike (withCapacity n cap ovf s go) (withCapacity n cap ovf s' go') := by
  unfold withCapacity
  split
  · exact (respond_obsEq h ..).answerAlike
  · exact hgo

section
variable {s s' : State} (hs : s.wc.toNat ≤ 64) (h : State.ObsEq s s')
include hs h

/-- The word that passes the check is the same in both states. -/
theorem withWord_alike (info : Arg) (k : Nat) {go go' : Word → Result} (hgo : ∀ w, AnswerAlike (go w) (go' w)) :
    AnswerAlike (withWord info k s go) (withWord info k s' go') := by
  obtain ⟨hwc, _, _, _, _, _, hwords⟩ := id h
  by_cases hk : s.wc.toNat ≤ k
  · have hinfo : wcInfo s' = wcInfo s := by simp only [wcInfo, hwc]
    rw [withWord_of_ge hk, withWord_of_ge (hwc ▸ hk), hinfo]
    exact (respond_obsEq h ..).answerAlike
  · have hlt : k < s.wc.toNat := Nat.lt_of_not_le hk
    obtain ⟨w, hw⟩ := readWord_eq_some_of_lt s (hlt.trans_le hs)
    rw [withWord_of_lt hlt hw, withWord_of_lt (hwc ▸ hlt) ((hwords k hlt).trans hw)]
    exact hgo w

/-! ## Instructions -/

theorem execDget_alike (k : Arg) : AnswerAlike (execDget k s) (execDget k s') := by
  obtain ⟨hwc, hdn, _, _, _, _, hwords⟩ := id h
  by_cases hk : s.wc.toNat ≤ k.toNat
  · rw [execDget_of_ge hk, execDget_of_ge (hwc ▸ hk)]
    exact respondOK_alike h 0
  · have hlt : k.toNat < s.wc.toNat := Nat.lt_of_not_le hk
    obtain ⟨w, hw⟩ := readWord_eq_some_of_lt s (hlt.trans_le hs)
    rw [execDget_of_lt hlt hw, execDget_of_lt (hwc ▸ hlt) ((hwords k.toNat hlt).trans hw), hdn]
    exact respondOK_alike h _

omit hs in
theorem execNew_alike (size : Arg) : AnswerAlike (execNew size s) (execNew size s') := by
  by_cases hsize : size.toNat ≤ 4096
  · rw [execNew_of_le hsize, execNew_of_le hsize]
    exact respondOK_alike (allocate_obsEq h _) _
  · rw [execNew_of_gt (Nat.lt_of_not_le hsize), execNew_of_gt (Nat.lt_of_not_le hsize)]
    exact (respond_obsEq h ..).answerAlike

theorem exec_alike (i : Instr) : AnswerAlike (exec i s) (exec i s') := by
  obtain ⟨hwc, hdn, _⟩ := id h
  cases i with
  | new size => exact execNew_alike h size
  | set ix b => exact withWord_alike hs h _ _ fun _ => respondOK_alike (writeWord_obsEq h _ _) 0
  | get ix => exact withWord_alike hs h _ _ fun _ => respondOK_alike h _
  | readw k => exact withWord_alike hs h _ _ fun _ => respondOK_alike h _
  | writew k d => exact withWord_alike hs h _ _ fun _ => respondOK_alike (writeWord_obsEq h _ _) 0
  | packFix w ovf n d => exact withCapacity_alike h _ _ _ (respondOK_alike h _)
  | packDyn q o n => exact withCapacity_alike h _ _ _ (respondOK_alike (writeDN_obsEq (allocate_obsEq h _) _) _)
  | unpackFix w ovf n p => exact withCapacity_alike h _ _ _ (respondOK_alike h _)
  | unpackDyn q o n =>
    have hcap : capacityBits s' = capacityBits s := by simp only [capacityBits, hwc]
    show AnswerAlike (execUnpackDyn q o n s) (execUnpackDyn q o n s')
    unfold execUnpackDyn
    rw [hcap]
    exact withCapacity_alike h _ _ _ (respondOK_alike (writeDN_obsEq h _) _)
  | dput k d =>
    show AnswerAlike (execDput k d s) (execDput k d s')
    unfold execDput
    rw [hdn]
    exact withWord_alike hs h _ _ fun _ => respondOK_alike (writeWord_obsEq h _ _) 0
  | dget k => exact execDget_alike hs h k
  | stat =>
    have hstat : statWord s' = statWord s := by simp only [statWord, hwc, hdn]
    show AnswerAlike (execStat s) (execStat s')
    unfold execStat
    rw [hstat]
    exact respondOK_alike h _

theorem perform_alike (c : Command) : AnswerAlike (perform c s) (perform c s') := by
  unfold perform
  split
  · exact exec_alike hs h _
  · exact (respond_obsEq h ..).answerAlike

/-! ## The port -/

theorem accept_alike (c : Command) (lat : Nat) : AnswerAlike (accept c lat s) (accept c lat s') := by
  obtain ⟨hwc, hdn, _, hrsp, hin, htaken, hwords⟩ := h
  exact perform_alike (s := { s with busy := true, wait := lat, accepted := s.accepted + 1 })
    (s' := { s' with busy := true, wait := lat, accepted := s'.accepted + 1 }) hs
    ⟨hwc, hdn, rfl, hrsp, hin, htaken, hwords⟩ c

end

theorem State.ObsEq.setInputs {s s' : State} (h : State.ObsEq s s') (l : List HostInput) :
    State.ObsEq { s with inputs := l } { s' with inputs := l } := by
  obtain ⟨hwc, hdn, hbusy, hrsp, _, htaken, hwords⟩ := h
  exact ⟨hwc, hdn, hbusy, hrsp, rfl, htaken, hwords⟩

/-- The draws of the two resets may differ: no word lies below `WC` = 0. -/
theorem resetBlock_obsEq {s s' : State} (h : State.ObsEq s s') : State.ObsEq (resetBlock s) (resetBlock s') := by
  obtain ⟨_, _, _, _, hin, htaken, _⟩ := h
  exact ⟨rfl, rfl, rfl, rfl, hin, htaken, fun k hk => absurd hk (Nat.not_lt_zero k)⟩

theorem takeResponse_obsEq {s s' : State} (h : State.ObsEq s s') :
    State.ObsEq (takeResponse s) (takeResponse s') := by
  obtain ⟨hwc, hdn, hbusy, hrsp, hin, htaken, hwords⟩ := id h
  unfold takeResponse
  rw [hbusy, hrsp]
  split
  · exact ⟨hwc, hdn, rfl, rfl, hin, by rw [htaken], hwords⟩
  · exact h

theorem step_alike {s s' : State} (hs : s.wc.toNat ≤ 64) (h : State.ObsEq s s') : AnswerAlike (step s) (step s') := by
  rw [step_eq_handshake, step_eq_handshake]
  rcases handshake_cases s with
    ⟨hin, e⟩ | ⟨rest, hin, e⟩ | ⟨rest, hin, e⟩ | ⟨rest, hin, e⟩ | ⟨c, rest, hin, hb, e⟩ | ⟨c, rest, hin, hb, e⟩
  · rw [e, handshake_nil (h.inputs.trans hin)]
    exact h.answerAlike
  · rw [e, handshake_idle (h.inputs.trans hin)]
    exact (h.setInputs rest).answerAlike
  · rw [e, handshake_reset (h.inputs.trans hin)]
    exact (resetBlock_obsEq (h.setInputs rest)).answerAlike
  · rw [e, handshake_take (h.inputs.trans hin)]
    exact (takeResponse_obsEq (h.setInputs rest)).answerAlike
  · rw [e, handshake_send_busy (h.inputs.trans hin) (h.busy.trans hb)]
    exact h.answerAlike
  · rw [e, handshake_send (h.inputs.trans hin) (h.busy.trans hb)]
    exact accept_alike (s := { s with inputs := rest }) hs (h.setInputs rest) c 0

/-- With no word below `WC`, the whole storage is unobservable. -/
theorem obsEq_setBf_of_wc_zero {s : State} (hwc : s.wc = 0) (words : Storage) :
    State.ObsEq s { s with bf := words } :=
  ⟨rfl, rfl, rfl, rfl, rfl, rfl, fun k hk => by simp [hwc] at hk⟩

end Sys2Proof.Machine
end

section
/-! PROOFS. The statements of 10_state.md: the invariant, the registers' writers, `busy`, reset, and what cannot be observed. -/

namespace Sys2Proof.Machine

/-- Settles O40: of the operations a step is made of, only an accepted command can change `WC`. -/
theorem stepKeepsInvariant : Obligations.StepKeepsInvariant := by
  intro s t hs h
  rw [step_eq_handshake] at h
  rcases handshake_cases s with
    ⟨_, e⟩ | ⟨rest, _, e⟩ | ⟨rest, _, e⟩ | ⟨rest, _, e⟩ | ⟨_, _, _, _, e⟩ | ⟨c, rest, _, _, e⟩
  · cases e.symm.trans h; exact hs
  · cases e.symm.trans h; exact hs.setInputs rest
  · cases e.symm.trans h; exact resetBlock_inv _
  · cases e.symm.trans h; exact takeResponse_inv (hs.setInputs rest)
  · cases e.symm.trans h; exact hs
  · exact accept_inv (s := { s with inputs := rest }) hs.wc_le (e.symm.trans h)

/-- States that cannot be told apart run alike: a step keeps both that and the invariant. -/
theorem runSteps_alike (k : Nat) {s s' : State} (hs : s.Inv) (h : State.ObsEq s s') :
    AnswerAlike (runSteps k s) (runSteps k s') := by
  induction k generalizing s s' with
  | zero => exact h.answerAlike
  | succ k ih =>
    obtain ⟨t, t', ht, ht', hobs⟩ := step_alike hs.wc_le h
    rw [runSteps_succ, runSteps_succ, ht, ht', andThen_next, andThen_next]
    exact ih (stepKeepsInvariant s t hs ht) hobs

/-- Settles O44: at `WC` = 0 two storages cannot be told apart, and no run then tells them apart. -/
theorem resetContentsAreUnobservable : Obligations.ResetContentsAreUnobservable := by
  intro k s words hs hwc
  obtain ⟨t, t', ht, ht', hobs⟩ := runSteps_alike k hs (obsEq_setBf_of_wc_zero hwc words)
  obtain ⟨_, _, _, _, _, htaken, _⟩ := id hobs
  exact ⟨t, t', ht, ht', htaken, hobs⟩

/-- Settles O43: `step_alike`, with the given next state for the first. -/
theorem stepRespectsObservation : Obligations.StepRespectsObservation := by
  intro s s' t hs h ht
  obtain ⟨u, t', hu, ht', hobs⟩ := step_alike hs.wc_le h
  cases hu.symm.trans ht
  exact ⟨t', ht', hobs⟩

/-- Settles O41: as for a step; an edge that lets latency pass finds the block busy. -/
theorem clockEdgeKeepsInvariant : Obligations.ClockEdgeKeepsInvariant := by
  intro p s t hs h
  rcases clockEdge_cases p s with
    ⟨_, e⟩ | ⟨_, _, _, _, e⟩ | ⟨_, _, _, _, e⟩ | ⟨_, hb, _, e⟩ | ⟨_, _, _, e⟩ | ⟨_, _, _, e⟩
  · cases e.symm.trans h; exact resetBlock_inv s
  · cases e.symm.trans h; exact takeResponse_inv hs
  · cases e.symm.trans h; exact hs
  · cases e.symm.trans h; exact hs.setWait hb _
  · exact accept_inv hs.wc_le (e.symm.trans h)
  · cases e.symm.trans h; exact hs

/-- Settles O39: `WC` is 0, and the block idle owes nothing. -/
theorem resetStateHasInvariant : Obligations.ResetStateHasInvariant :=
  ⟨Nat.zero_le _, rfl, fun _ => reset_wait⟩

/-- Settles O27: the check of a word index is the one place that can fault, and six instructions make it. -/
theorem accessBeyondArrayStops : Obligations.AccessBeyondArrayStops := by
  refine ⟨fun i s e h => ⟨by cases e; rfl, ?_⟩, fun i b s h64 hlt => ?_, fun k d s h64 hlt => ?_⟩
  · cases i with
    | new size =>
      obtain ⟨t, ht⟩ := execNew_completes size s
      cases ht.symm.trans h
    | set ix b =>
      obtain ⟨h64, hlt⟩ := withWord_fault (fun _ => ⟨_, rfl⟩) h
      exact ⟨_, h64, hlt, .inl ⟨ix, b, rfl, rfl⟩⟩
    | get ix =>
      obtain ⟨h64, hlt⟩ := withWord_fault (fun _ => ⟨_, rfl⟩) h
      exact ⟨_, h64, hlt, .inr (.inl ⟨ix, rfl, rfl⟩)⟩
    | readw k =>
      obtain ⟨h64, hlt⟩ := withWord_fault (fun _ => ⟨_, rfl⟩) h
      exact ⟨_, h64, hlt, .inr (.inr (.inl ⟨k, rfl, rfl⟩))⟩
    | writew k d =>
      obtain ⟨h64, hlt⟩ := withWord_fault (fun _ => ⟨_, rfl⟩) h
      exact ⟨_, h64, hlt, .inr (.inr (.inr (.inl ⟨k, d, rfl, rfl⟩)))⟩
    | packFix w ovf n d => exact (withCapacity_ne_fault ⟨_, rfl⟩ h).elim
    | packDyn q o n => exact (withCapacity_ne_fault ⟨_, rfl⟩ h).elim
    | unpackFix w ovf n p => exact (withCapacity_ne_fault ⟨_, rfl⟩ h).elim
    | unpackDyn q o n => exact (withCapacity_ne_fault ⟨_, rfl⟩ h).elim
    | dput k d =>
      obtain ⟨h64, hlt⟩ := withWord_fault (fun _ => ⟨_, rfl⟩) h
      exact ⟨_, h64, hlt, .inr (.inr (.inr (.inr (.inl ⟨k, d, rfl, rfl⟩))))⟩
    | dget k =>
      obtain ⟨h64, hlt⟩ := execDget_fault h
      exact ⟨_, h64, hlt, .inr (.inr (.inr (.inr (.inr ⟨k, rfl, rfl⟩))))⟩
    | stat => cases h
  · exact ⟨withWord_of_overrun h64 hlt, withWord_of_overrun h64 hlt⟩
  · exact ⟨withWord_of_overrun h64 hlt, withWord_of_overrun h64 hlt, withWord_of_overrun h64 hlt,
      execDget_of_overrun h64 hlt⟩

/-- Settles O28: read off the five kinds of write `exec_writes` names. -/
theorem onlyNamedCommandsWriteRegisters : Obligations.OnlyNamedCommandsWriteRegisters := by
  intro i s t h
  rcases exec_writes h with ⟨hbf, hwc, hdn⟩ | ⟨size, hi, _, _, _, hdn⟩ | ⟨q, o, n, hi, _⟩ |
    ⟨q, o, n, hi, hbf, hwc, _⟩ | ⟨hi, _, _, _, hwc, hdn⟩
  · exact ⟨fun hne => (hne hwc.symm).elim, fun hne => (hne hdn.symm).elim, fun hne => (hne hbf.symm).elim⟩
  · exact ⟨fun _ => .inl ⟨size, hi⟩, fun hne => (hne hdn.symm).elim, fun _ => .inl ⟨size, hi⟩⟩
  · exact ⟨fun _ => .inr ⟨q, o, n, hi⟩, fun _ => .inl ⟨q, o, n, hi⟩,
      fun _ => .inr (.inr (.inr (.inl ⟨q, o, n, hi⟩)))⟩
  · exact ⟨fun hne => (hne hwc.symm).elim, fun _ => .inr ⟨q, o, n, hi⟩, fun hne => (hne hbf.symm).elim⟩
  · refine ⟨fun hne => (hne hwc.symm).elim, fun hne => (hne hdn.symm).elim, fun _ => ?_⟩
    rcases hi with hset | hwritew | hdput
    · exact .inr (.inl hset)
    · exact .inr (.inr (.inl hwritew))
    · exact .inr (.inr (.inr (.inr hdput)))

/-- Settles O10: of what a step can do, accepting sets `busy`, and taking and reset alone clear it. -/
theorem busyFromAcceptanceToTaking : Obligations.BusyFromAcceptanceToTaking := by
  refine ⟨fun s t c rest hb hin h => ?_, fun s c rest hb hin => handshake_send_busy hin hb,
    fun s r rest hb hr hin => ?_, fun s t hb h hidle => ?_, resetBlock_busy, reset_busy⟩
  · rw [step_eq_handshake, handshake_send hin hb] at h
    obtain ⟨hbusy, _⟩ := accept_next h
    exact hbusy
  · rw [step_eq_handshake, handshake_take hin, takeResponse_of_busy (s := { s with inputs := rest }) hb hr]
  · rw [step_eq_handshake] at h
    rcases handshake_cases s with
      ⟨_, e⟩ | ⟨_, _, e⟩ | ⟨rest, hin, _⟩ | ⟨rest, hin, _⟩ | ⟨_, _, _, _, e⟩ | ⟨_, _, _, hb', _⟩
    · cases e.symm.trans h; cases hb.symm.trans hidle
    · cases e.symm.trans h; cases hb.symm.trans hidle
    · exact ⟨rest, .inr hin⟩
    · exact ⟨rest, .inl hin⟩
    · cases e.symm.trans h; cases hb.symm.trans hidle
    · cases hb.symm.trans hb'

/-- The storage of the reset state is the first draw. -/
theorem readWord_reset {k : Nat} (h : k < 64) : readWord State.reset k = some (Config.bfAtReset 0 k) :=
  (readWord_congr (s := resetBlock { State.reset with resets := 0 }) rfl k).trans (readWord_resetBlock _ h)

theorem clockEdge_reset {p : InPins} (hr : p.rst = true) (s : State) : clockEdge p s = .next (resetBlock s) := by
  simp [clockEdge, hr]

/-- Settles O12: a step and an edge both apply `resetBlock`. -/
theorem resetPutsResetValues : Obligations.ResetPutsResetValues := by
  refine ⟨fun s rest hin => ⟨_, handshake_reset hin, ?_⟩, fun p s hr => ⟨resetBlock s, clockEdge_reset hr s, ?_⟩, ?_⟩
  · exact ⟨rfl, rfl, rfl, rfl, rfl, rfl, fun k hk => readWord_resetBlock _ hk⟩
  · exact ⟨rfl, rfl, rfl, rfl, fun k hk => readWord_resetBlock s hk⟩
  · exact ⟨reset_wc, reset_dn, reset_busy, reset_rsp, fun k hk => readWord_reset hk⟩

end Sys2Proof.Machine
end

section
/-! SUPPORT. A command performed again at once (20_memory.md R47): why it answers and writes the same. -/

namespace Sys2Proof.Machine

/-! ## Reads -/

/-- The instruction only reads: its response is all it changes. -/
def OnlyReads (i : Instr) : Prop :=
  (∃ ix, i = .get ix) ∨ (∃ k, i = .readw k) ∨ (∃ k, i = .dget k) ∨ i = .stat ∨
    (∃ w o n d, i = .packFix w o n d) ∨ ∃ w o n p, i = .unpackFix w o n p

theorem execDget_sameBlock {k : Arg} {s t : State} (h : execDget k s = .next t) : t.SameBlock s := by
  rcases execDget_cases k s with ⟨_, e⟩ | ⟨_, _, e⟩
  · cases e.symm.trans h; exact ⟨rfl, rfl, rfl⟩
  · cases e.symm.trans h

theorem OnlyReads.sameBlock {i : Instr} {s t : State} (hi : OnlyReads i) (h : exec i s = .next t) :
    t.SameBlock s := by
  rcases hi with ⟨ix, rfl⟩ | ⟨k, rfl⟩ | ⟨k, rfl⟩ | rfl | ⟨w, o, n, d, rfl⟩ | ⟨w, o, n, p, rfl⟩
  · exact withWord_sameBlock h
  · exact withWord_sameBlock h
  · exact execDget_sameBlock h
  · cases h; exact ⟨rfl, rfl, rfl⟩
  · exact fixedCodec_sameBlock h
  · exact fixedCodec_sameBlock h

/-! ## Answers that write nothing -/

/-- Together the block, the port's side and the response are the whole state. -/
theorem State.SameBlock.eq_setRsp {s t : State} (hblock : t.SameBlock s) (hport : t.SamePort s) :
    t = { s with rsp := t.rsp } := by
  cases s
  cases t
  obtain ⟨rfl, rfl, rfl⟩ := hblock
  obtain ⟨rfl, rfl, rfl, rfl, rfl, rfl⟩ := hport
  rfl

/-- An answer that writes nothing differs from the state before in the response alone, which no meaning reads. -/
theorem exec_again_of_sameBlock {i : Instr} {s t : State} (h : exec i s = .next t) (hsame : t.SameBlock s) :
    exec i t = .next t := by
  obtain ⟨_, _, _, hport, _⟩ := exec_next h
  calc exec i t = exec i { s with rsp := t.rsp } := congrArg (exec i) (hsame.eq_setRsp hport)
    _ = exec i s := exec_rsp i s t.rsp
    _ = .next t := h

/-! ## Writes of one word -/

/-- The second write of a bit finds the value it writes. -/
theorem insertBit_insertBit (w : Word) (j : Nat) (b : Bool) :
    insertBit (insertBit w j b) j b = insertBit w j b := by
  apply BitVec.eq_of_getLsbD_eq
  intro i hi
  rw [getLsbD_insertBit _ _ _ _ hi, getLsbD_insertBit _ _ _ _ hi]
  split
  · rfl
  · rfl

theorem writeWord_writeWord (k : Nat) (v : Word) (s : State) :
    writeWord k v (writeWord k v s) = writeWord k v s := by
  simp [writeWord]

theorem readWord_writeWord_self {s : State} {k : Nat} {w : Word} (h : readWord s k = some w) (v : Word) :
    readWord (writeWord k v s) k = some v := by
  have hk : k < 64 := by
    by_contra hge
    cases h.symm.trans (readWord_eq_none_of_ge s (Nat.le_of_not_lt hge))
  rw [readWord_writeWord, if_pos rfl, if_pos hk]

/-- A command that writes its word writes the same word again if what it does to a word is idempotent. -/
theorem withWord_again {info : Arg} {k : Nat} {s t : State} {f : Word → Word} (hf : ∀ w, f (f w) = f w)
    (h : withWord info k s (fun w => respondOK 0 (writeWord k (f w) s)) = .next t) :
    withWord info k t (fun w => respondOK 0 (writeWord k (f w) t)) = .next t := by
  rcases withWord_cases info k s (fun w => respondOK 0 (writeWord k (f w) s)) with
    ⟨hge, e⟩ | ⟨hlt, w, hw, e⟩ | ⟨_, _, e⟩
  · cases e.symm.trans h
    exact withWord_of_ge hge
  · cases e.symm.trans h
    have hread := readWord_writeWord_self hw (f w)
    calc withWord info k _ _ = respondOK 0 (writeWord k (f (f w)) (writeWord k (f w) s)) :=
          withWord_of_lt (s := respond .ok 0 0 0 (writeWord k (f w) s)) hlt hread
      _ = respondOK 0 (writeWord k (f w) s) := by rw [hf, writeWord_writeWord]
  · cases e.symm.trans h

/-- DPUT leaves `DN` alone, so its chunk is masked to the same flags again. -/
theorem execDput_again {k : Arg} {d : Word} {s t : State} (h : exec (.dput k d) s = .next t) :
    exec (.dput k d) t = .next t := by
  have hdn : t.dn = s.dn := by
    rcases withWord_writeWord (f := fun _ => d &&& lowmask (chunkFlags s.dn.toNat k.toNat)) h with
      ⟨_, _, e⟩ | ⟨_, _, _, e⟩
    · exact e.symm
    · exact e.symm
  show execDput k d t = .next t
  unfold execDput
  rw [hdn]
  exact withWord_again (f := fun _ => d &&& lowmask (chunkFlags s.dn.toNat k.toNat)) (fun _ => rfl) h

/-- SET leaves every word but its target. -/
theorem execSet_readWord_of_ne {ix : Arg} {b : Bool} {s t : State} {k : Nat} (h : exec (.set ix b) s = .next t)
    (hk : k ≠ wordIndex ix.toNat) : readWord t k = readWord s k := by
  rcases withWord_writeWord h with ⟨hbf, _⟩ | ⟨v, hbf, _⟩
  · exact (readWord_congr hbf k).symm
  · rw [← readWord_congr hbf, readWord_writeWord, if_neg hk.symm]

/-! ## Allocations and counts -/

theorem withCapacity_of_fits {n : Arg} {cap : Nat} {ovf : Bool} (hfits : n.toNat ≤ cap ∨ ovf = true) (s : State)
    (go : Result) : withCapacity n cap ovf s go = go := by
  rcases withCapacity_cases n cap ovf s go with ⟨hlt, hovf, _⟩ | ⟨_, e⟩
  · simp only [hovf, Bool.false_eq_true, or_false] at hfits
    omega
  · exact e

/-- Either the check answered its error, or it was passed and will be again: it depends on count, capacity and policy. -/
theorem withCapacity_next_fits {n : Arg} {cap : Nat} {ovf : Bool} {s t : State} {go : Result}
    (h : withCapacity n cap ovf s go = .next t) :
    t.SameBlock s ∨ go = .next t ∧ (n.toNat ≤ cap ∨ ovf = true) := by
  rcases withCapacity_cases n cap ovf s go with ⟨_, _, e⟩ | ⟨hfits, e⟩
  · cases e.symm.trans h; exact .inl ⟨rfl, rfl, rfl⟩
  · exact .inr ⟨e.symm.trans h, hfits⟩

theorem execNew_again {size : Arg} {s t : State} (h : exec (.new size) s = .next t) :
    exec (.new size) t = .next t := by
  change execNew size s = _ at h
  by_cases hsize : size.toNat ≤ 4096
  · rw [execNew_of_le hsize] at h
    cases h
    exact execNew_of_le hsize _
  · rw [execNew_of_gt (Nat.lt_of_not_le hsize)] at h
    cases h
    exact execNew_of_gt (Nat.lt_of_not_le hsize) _

theorem execPackDyn_again {q : BitVec 3} {o : Bool} {n : Arg} {s t : State}
    (h : exec (.packDyn q o n) s = .next t) : exec (.packDyn q o n) t = .next t := by
  rcases withCapacity_next_fits h with hsame | ⟨hgo, hfits⟩
  · exact exec_again_of_sameBlock h hsame
  · cases hgo; exact withCapacity_of_fits hfits _ _

/-- UNPACK.DYN leaves `WC` alone, so its check finds the same capacity again. -/
theorem execUnpackDyn_again {q : BitVec 3} {o : Bool} {n : Arg} {s t : State}
    (h : exec (.unpackDyn q o n) s = .next t) : exec (.unpackDyn q o n) t = .next t := by
  rcases withCapacity_next_fits h with hsame | ⟨hgo, hfits⟩
  · exact exec_again_of_sameBlock h hsame
  · cases hgo; exact withCapacity_of_fits hfits _ _

/-! ## All instructions -/

/-- Every instruction is idempotent, its response included. -/
theorem exec_again {i : Instr} {s t : State} (h : exec i s = .next t) : exec i t = .next t := by
  cases i with
  | new size => exact execNew_again h
  | set ix b => exact withWord_again (fun w => insertBit_insertBit w (bitIndex ix.toNat) b) h
  | get ix => exact exec_again_of_sameBlock h (withWord_sameBlock h)
  | readw k => exact exec_again_of_sameBlock h (withWord_sameBlock h)
  | writew k d => exact withWord_again (f := fun _ => d) (fun _ => rfl) h
  | packFix w o n d => exact exec_again_of_sameBlock h (fixedCodec_sameBlock h)
  | packDyn q o n => exact execPackDyn_again h
  | unpackFix w o n p => exact exec_again_of_sameBlock h (fixedCodec_sameBlock h)
  | unpackDyn q o n => exact execUnpackDyn_again h
  | dput k d => exact execDput_again h
  | dget k => exact exec_again_of_sameBlock h (execDget_sameBlock h)
  | stat => cases h; rfl

end Sys2Proof.Machine
end

section
/-! PROOFS. The statements of 20_memory.md: reads have no side effects, and commands are idempotent. -/

namespace Sys2Proof.Machine

/-- Settles O34: the reads leave the block, a repeated command finds nothing to change, and SET writes its target word. -/
theorem readsArePureAndWritesIdempotent : Obligations.ReadsArePureAndWritesIdempotent :=
  ⟨fun _ _ _ hi h => OnlyReads.sameBlock hi h, fun _ _ _ h => exec_again h,
    fun _ _ _ _ _ h hk => execSet_readWord_of_ne h hk⟩

end Sys2Proof.Machine
end

section
/-! SUPPORT. The decoder (30_encoding.md R71) reads legality and every operand but the data from the header (R67,
R69). -/

namespace Sys2Proof

/-- The instruction with its data operand replaced, where it uses one (R69). -/
def Instr.withData (d : Word) : Instr → Instr
  | .new size => .new size
  | .set i b => .set i b
  | .get i => .get i
  | .readw k => .readw k
  | .writew k _ => .writew k d
  | .packFix w ovf n _ => .packFix w ovf n d
  | .packDyn wsel ovf n => .packDyn wsel ovf n
  | .unpackFix w ovf n _ => .unpackFix w ovf n d
  | .unpackDyn wsel ovf n => .unpackDyn wsel ovf n
  | .dput k _ => .dput k d
  | .dget k => .dget k
  | .stat => .stat

theorem Instr.withData_of_not_usesData {i : Instr} (h : i.usesData = false) (d : Word) : i.withData d = i := by
  cases i with
  | writew k d => cases h
  | packFix w ovf n d => cases h
  | unpackFix w ovf n p => cases h
  | dput k d => cases h
  | _ => rfl

theorem Instr.withData_encode_data (i : Instr) : i.withData (encode i).data = i := by cases i <;> rfl

/-- The encoder's header decodes, under any data operand, to the instruction with that operand. -/
theorem decode_encode_hdr {i : Instr} (h : i.wellFormed = true) (d : Word) :
    decode ⟨(encode i).hdr, d⟩ = .ok (i.withData d) := by
  cases i with
  | new size => simp [encode, decode, decodePlain, Instr.withData]
  | set ix b => simp [encode, decode, decodeSet, Instr.withData]
  | get ix => simp [encode, decode, decodePlain, Instr.withData]
  | readw k => simp [encode, decode, decodePlain, Instr.withData]
  | writew k _ => simp [encode, decode, decodePlain, Instr.withData]
  | packFix w ovf n _ => simp [-BitVec.getLsbD_eq_getElem, encode, decode, decodePack, Instr.withData]
  | packDyn wsel ovf n =>
    replace h : wsel.getLsbD 2 = true := h
    simp [-BitVec.getLsbD_eq_getElem, encode, decode, decodePack, Instr.withData, h]
  | unpackFix w ovf n _ => simp [-BitVec.getLsbD_eq_getElem, encode, decode, decodeUnpack, Instr.withData]
  | unpackDyn wsel ovf n =>
    replace h : wsel.getLsbD 2 = true := h
    simp [-BitVec.getLsbD_eq_getElem, encode, decode, decodeUnpack, Instr.withData, h]
  | dput k _ => simp [encode, decode, decodePlain, Instr.withData]
  | dget k => simp [encode, decode, decodePlain, Instr.withData]
  | stat => simp [encode, decode, decodePlain, decodeStat, Instr.withData]

theorem decode_encode {i : Instr} (h : i.wellFormed = true) : decode (encode i) = .ok i :=
  calc decode (encode i) = .ok (i.withData (encode i).data) := decode_encode_hdr h _
    _ = .ok i := by rw [i.withData_encode_data]

/-- A command that decodes has the header the encoder gives its instruction. -/
theorem encode_hdr_of_decode {c : Command} {i : Instr} (h : decode c = .ok i) : (encode i).hdr = c.hdr := by
  obtain ⟨_, hres, hhdr, _⟩ := decode_ok_fields h
  rw [hhdr, header_fields hres]

/-- Another data operand changes the instruction's own data operand and nothing else. -/
theorem decode_of_decode_data {h : Header} {d : Word} {i : Instr} (hd : decode ⟨h, d⟩ = .ok i) (d' : Word) :
    decode ⟨h, d'⟩ = .ok (i.withData d') := by
  obtain ⟨hwf, _⟩ := decode_ok_fields hd
  have hhdr : (encode i).hdr = h := encode_hdr_of_decode hd
  rw [← hhdr, decode_encode_hdr hwf]

theorem illegal_iff_not_decodes (c : Command) : (∃ e, decode c = .error e) ↔ ¬ ∃ i, decode c = .ok i := by
  cases decode c <;> simp

theorem decode_of_reserved_opcode {c : Command} (h : 10 ≤ (opField c.hdr).toNat) :
    decode c = .error .reservedOpcode := by
  simp [decode, h]

theorem decode_of_decodeTableWord {nbits w : Nat} {i : Instr} (h : decodeTableWord nbits w = some i) :
    decode (commandOfTableWord nbits w) = .ok i := by
  unfold decodeTableWord at h
  split at h
  · next hd => cases h; exact hd
  · cases h

/-- A command that does not decode is answered ILLEGAL (R131). -/
theorem Machine.perform_of_decode_error {c : Command} {e : Illegal} (h : decode c = .error e) (s : Machine.State) :
    Machine.perform c s = Machine.raiseIllegal c.hdr s := by
  simp only [Machine.perform, h]

/-! ## The width selector (R64) -/

theorem wselOfWidth_widthOfSel_low (sel : BitVec 2) : wselOfWidth (widthOfSel sel) = sel.setWidth 3 := by
  revert sel; decide

theorem top_of_four_le {wsel : BitVec 3} (h : 4 ≤ wsel.toNat) : wsel.getLsbD 2 = true := by
  revert wsel; decide

theorem widthBits_widthOfSel (sel : BitVec 2) : Machine.widthBits (widthOfSel sel) = 8 <<< sel.toNat := by
  revert sel; decide

end Sys2Proof
end

section
/-! SUPPORT. The rows of opcode_table.json (30_encoding.md R66): no header lies in two, and one that lies in a row
decodes. -/

namespace Sys2Proof

/-! ## No header lies in two rows -/

theorem encode_in_row (i : Instr) : Laws.TableRow.Statement i := by
  cases i with
  | new size => exact Laws.TableRow.new size
  | set ix b => exact Laws.TableRow.set ix b
  | get ix => exact Laws.TableRow.get ix
  | readw k => exact Laws.TableRow.readw k
  | writew k d => exact Laws.TableRow.writew k d
  | packFix w ovf n d => exact Laws.TableRow.packFix w ovf n d
  | packDyn wsel ovf n => exact Laws.TableRow.packDyn wsel ovf n
  | unpackFix w ovf n p => exact Laws.TableRow.unpackFix w ovf n p
  | unpackDyn wsel ovf n => exact Laws.TableRow.unpackDyn wsel ovf n
  | dput k d => exact Laws.TableRow.dput k d
  | dget k => exact Laws.TableRow.dget k
  | stat => exact Laws.TableRow.stat

theorem row_of_decode {c : Command} {i : Instr} (h : decode c = .ok i) :
    i.row ∈ tableRows ∧ i.row.covers c.hdr = true := by
  obtain ⟨hwf, _⟩ := decode_ok_fields h
  rw [← encode_hdr_of_decode h]
  exact encode_in_row i hwf

/-- Under the bits both masks keep, rows that share a header match the same bits. -/
theorem TableRow.pat_and_mask_of_covers {r r' : TableRow} {h : Header} (hr : r.covers h = true)
    (hr' : r'.covers h = true) : r.pat &&& r'.mask = r'.pat &&& r.mask := by
  simp only [TableRow.covers, beq_iff_eq] at hr hr'
  rw [← hr, ← hr', BitVec.and_assoc, BitVec.and_assoc, BitVec.and_comm r.mask]

/-- Two rows of the table differ in a bit both masks keep. -/
theorem rows_apart : ∀ r ∈ tableRows, ∀ r' ∈ tableRows, r.pat &&& r'.mask = r'.pat &&& r.mask → r' = r := by
  decide

theorem row_unique {r r' : TableRow} {h : Header} (hmem : r ∈ tableRows) (hmem' : r' ∈ tableRows)
    (hr : r.covers h = true) (hr' : r'.covers h = true) : r' = r :=
  rows_apart r hmem r' hmem' (TableRow.pat_and_mask_of_covers hr hr')

/-! ## A header in a row is put together from the fields the row leaves open -/

section
variable (x y : Header)

theorem opField_and : opField (x &&& y) = opField x &&& opField y := BitVec.extractLsb'_and
theorem wselField_and : wselField (x &&& y) = wselField x &&& wselField y := BitVec.extractLsb'_and
theorem ovfField_and : ovfField (x &&& y) = (ovfField x && ovfField y) := BitVec.getLsbD_and
theorem valField_and : valField (x &&& y) = (valField x && valField y) := BitVec.getLsbD_and
theorem resField_and : resField (x &&& y) = resField x &&& resField y := BitVec.extractLsb'_and
theorem argField_and : argField (x &&& y) = argField x &&& argField y := BitVec.extractLsb'_and

end

/-- A row speaks of each field apart. -/
theorem fields_of_covers {mask h : Header} {op : BitVec 4} {wsel : BitVec 3} {ovf val : Bool} {arg : Arg}
    (hr : TableRow.covers ⟨mask, header op wsel ovf val arg⟩ h = true) :
    opField h &&& opField mask = op ∧ wselField h &&& wselField mask = wsel ∧
    (ovfField h && ovfField mask) = ovf ∧ (valField h && valField mask) = val ∧
    resField h &&& resField mask = 0 ∧ argField h &&& argField mask = arg := by
  simp only [TableRow.covers, beq_iff_eq] at hr
  exact ⟨by rw [← opField_and, hr, opField_header], by rw [← wselField_and, hr, wselField_header],
    by rw [← ovfField_and, hr, ovfField_header], by rw [← valField_and, hr, valField_header],
    by rw [← resField_and, hr, resField_header], by rw [← argField_and, hr, argField_header]⟩

theorem header_eq_of_fields {h : Header} {op : BitVec 4} {wsel : BitVec 3} {ovf val : Bool} {arg : Arg}
    (hop : opField h = op) (hwsel : wselField h = wsel) (hovf : ovfField h = ovf) (hval : valField h = val)
    (hres : resField h = 0) (harg : argField h = arg) : header op wsel ovf val arg = h := by
  subst hop hwsel hovf hval harg
  exact header_fields hres

/-! A mask keeps a field whole (`BitVec.and_allOnes`, `Bool.and_true`) or leaves it open. -/

section
variable {h : Header} {op : BitVec 4}

/-- A row that leaves `arg` alone open. -/
theorem header_of_plain_row (hr : TableRow.covers ⟨0x0000FFFF, header op 0 false false 0⟩ h = true) :
    header op 0 false false (argField h) = h := by
  obtain ⟨hop, hwsel, hovf, hval, hres, _⟩ := fields_of_covers hr
  exact header_eq_of_fields (BitVec.and_allOnes.symm.trans hop) (BitVec.and_allOnes.symm.trans hwsel)
    ((Bool.and_true _).symm.trans hovf) ((Bool.and_true _).symm.trans hval)
    (BitVec.and_allOnes.symm.trans hres) rfl

/-- The SET row leaves `val` open too. -/
theorem header_of_set_row (hr : TableRow.covers ⟨0x0000FEFF, header op 0 false false 0⟩ h = true) :
    header op 0 false (valField h) (argField h) = h := by
  obtain ⟨hop, hwsel, hovf, _, hres, _⟩ := fields_of_covers hr
  exact header_eq_of_fields (BitVec.and_allOnes.symm.trans hop) (BitVec.and_allOnes.symm.trans hwsel)
    ((Bool.and_true _).symm.trans hovf) rfl (BitVec.and_allOnes.symm.trans hres) rfl

/-- A PACK or UNPACK row leaves `wsel[1:0]` and `ovf` open. -/
theorem header_of_codec_row {wsel : BitVec 3}
    (hr : TableRow.covers ⟨0x0000FF4F, header op wsel false false 0⟩ h = true) :
    (wselField h).getLsbD 2 = wsel.getLsbD 2 ∧ header op (wselField h) (ovfField h) false (argField h) = h := by
  obtain ⟨hop, hwsel, _, hval, hres, _⟩ := fields_of_covers hr
  refine ⟨?_, header_eq_of_fields (BitVec.and_allOnes.symm.trans hop) rfl rfl
    ((Bool.and_true _).symm.trans hval) (BitVec.and_allOnes.symm.trans hres) rfl⟩
  rw [← hwsel, BitVec.getLsbD_and]
  exact (Bool.and_true _).symm

end

/-- Every header in a row is the encoder's header of a well-formed instruction. -/
theorem exists_instr_of_covers {r : TableRow} {h : Header} (hmem : r ∈ tableRows) (hr : r.covers h = true) :
    ∃ i : Instr, i.wellFormed = true ∧ (encode i).hdr = h := by
  simp only [tableRows, List.cons_append, List.nil_append, List.mem_cons, List.not_mem_nil, or_false] at hmem
  rcases hmem with rfl | rfl | rfl | rfl | rfl | rfl | rfl | rfl | rfl | rfl | rfl | rfl
  · exact ⟨.new (argField h), rfl, header_of_plain_row hr⟩
  · exact ⟨.set (argField h) (valField h), rfl, header_of_set_row hr⟩
  · exact ⟨.get (argField h), rfl, header_of_plain_row hr⟩
  · exact ⟨.readw (argField h), rfl, header_of_plain_row hr⟩
  · exact ⟨.writew (argField h) 0, rfl, header_of_plain_row hr⟩
  · obtain ⟨hsel, hhdr⟩ := header_of_codec_row (op := 5) (wsel := 0) hr
    refine ⟨.packFix (widthOfSel ((wselField h).extractLsb' 0 2)) (ovfField h) (argField h) 0, rfl, ?_⟩
    rw [encode, wselOfWidth_widthOfSel _ hsel, hhdr]
  · obtain ⟨hsel, hhdr⟩ := header_of_codec_row (op := 5) (wsel := 4) hr
    exact ⟨.packDyn (wselField h) (ovfField h) (argField h), hsel, hhdr⟩
  · obtain ⟨hsel, hhdr⟩ := header_of_codec_row (op := 6) (wsel := 0) hr
    refine ⟨.unpackFix (widthOfSel ((wselField h).extractLsb' 0 2)) (ovfField h) (argField h) 0, rfl, ?_⟩
    rw [encode, wselOfWidth_widthOfSel _ hsel, hhdr]
  · obtain ⟨hsel, hhdr⟩ := header_of_codec_row (op := 6) (wsel := 4) hr
    exact ⟨.unpackDyn (wselField h) (ovfField h) (argField h), hsel, hhdr⟩
  · exact ⟨.dput (argField h) 0, rfl, header_of_plain_row hr⟩
  · exact ⟨.dget (argField h), rfl, header_of_plain_row hr⟩
  · refine ⟨.stat, rfl, ?_⟩
    simp only [TableRow.covers, beq_iff_eq] at hr
    exact (BitVec.and_allOnes.symm.trans hr).symm

/-- A command decodes exactly when its header is in a row. -/
theorem decodes_iff_covered (c : Command) :
    (∃ i, decode c = .ok i) ↔ ∃ r ∈ tableRows, r.covers c.hdr = true := by
  constructor
  · rintro ⟨i, hi⟩
    exact ⟨i.row, row_of_decode hi⟩
  · rintro ⟨r, hmem, hr⟩
    obtain ⟨i, hwf, hhdr⟩ := exists_instr_of_covers hmem hr
    exact ⟨i.withData c.data, by rw [← decode_encode_hdr hwf, hhdr]⟩

end Sys2Proof
end

section
/-! PROOFS. The statements of 30_encoding.md: decoding and encoding, the table, the data operand and the response. -/

namespace Sys2Proof.Machine

/-- Settles O1: the encoder's header decodes under any data operand, its own included. -/
theorem decodeOfEncodeIsIdentity : Obligations.DecodeOfEncodeIsIdentity :=
  fun _ h => decode_encode h

/-- Settles O2: the header is put together from its fields again, its reserved bits being 0. -/
theorem encodeOfDecodeRestoresCommand : Obligations.EncodeOfDecodeRestoresCommand := by
  intro c i h
  obtain ⟨hwf, _, _, hdata⟩ := decode_ok_fields h
  exact ⟨hwf, encode_hdr_of_decode h, hdata⟩

/-- Settles O3: rows are apart, and a command decodes exactly when a row covers its header. -/
theorem headerIsInOneRowOrIllegal : Obligations.HeaderIsInOneRowOrIllegal := by
  intro c
  refine ⟨fun i hi => ?_, ?_, fun hop => ⟨_, decode_of_reserved_opcode hop⟩⟩
  · obtain ⟨hmem, hrow⟩ := row_of_decode hi
    exact ⟨hmem, hrow, fun r hr hcov => row_unique hmem hr hrow hcov⟩
  · rw [illegal_iff_not_decodes, decodes_iff_covered]
    simp

/-- Settles O5: a selector below 4 is that of a width; `exec` does not look at one from 4 up. -/
theorem widthSelectorChoosesRepresentation : Obligations.WidthSelectorChoosesRepresentation := by
  refine ⟨fun sel ovf n d => ⟨widthBits_widthOfSel sel, ?_, ?_⟩,
    fun wsel ovf n d h => ⟨?_, ?_, fun _ => ⟨rfl, rfl⟩⟩⟩
  · rw [← wselOfWidth_widthOfSel_low]
    exact decode_encode (i := .packFix (widthOfSel sel) ovf n d) rfl
  · rw [← wselOfWidth_widthOfSel_low]
    exact decode_encode (i := .unpackFix (widthOfSel sel) ovf n d) rfl
  · exact decode_encode_hdr (i := .packDyn wsel ovf n) (top_of_four_le h) d
  · exact decode_encode_hdr (i := .unpackDyn wsel ovf n) (top_of_four_le h) d

/-- Settles O6: the data operand decides neither legality nor what a command that does not use it decodes to. -/
theorem unusedDataHasNoEffect : Obligations.UnusedDataHasNoEffect := by
  intro h d d' s hunused
  cases hd : decode ⟨h, d⟩ with
  | ok i =>
    have hd' : decode ⟨h, d'⟩ = .ok i := by
      rw [decode_of_decode_data hd d', Instr.withData_of_not_usesData (hunused i hd)]
    rw [perform_of_decode hd, perform_of_decode hd']
  | error e =>
    cases hd' : decode ⟨h, d'⟩ with
    | ok i => cases (decode_of_decode_data hd' d).symm.trans hd
    | error e' => rw [perform_of_decode_error hd, perform_of_decode_error hd']

/-- Settles O31: `exec_next` for a legal command; an illegal header is answered by `raise`. -/
theorem responseIsResultOrErrorInfo : Obligations.ResponseIsResultOrErrorInfo := by
  intro c s t h
  rcases perform_cases c s with ⟨i, _, e⟩ | ⟨_, _, e⟩
  · obtain ⟨u, r, rfl, _, ⟨d, rfl⟩ | ⟨st, a, b, hst, rfl, _⟩⟩ := exec_next (e.symm.trans h)
    · exact ⟨_, rfl, fun _ => ⟨rfl, rfl⟩, fun hne => (hne rfl).elim⟩
    · exact ⟨_, rfl, fun hok => (hst hok).elim, fun _ => rfl⟩
  · cases e.symm.trans h
    exact ⟨_, rfl, nofun, fun _ => rfl⟩

/-- Settles O4: nine fixed words, computed. -/
theorem specWordsDecode : Obligations.SpecWordsDecode := by
  unfold Obligations.SpecWordsDecode
  decide

/-- Settles O8: the placed command transfers, and `perform` runs what it decodes to. -/
theorem fetchWordRunsNext : Obligations.FetchWordRunsNext := by
  intro s nbits w i h
  have hd := decode_of_decodeTableWord h
  rw [step_eq_handshake, State.withFetchWord, offerNext, handshake_send rfl rfl, accept, perform_of_decode hd]

end Sys2Proof.Machine
end

section
/-! SUPPORT. The bitfield commands (40_bitfield.md R80 to R84) operand by operand: in range, out of range, and what SET and
WRITEW leave of the storage. -/

namespace Sys2Proof.Machine

/-! ## The capacity check -/

/-- The information field of the error, as R142 gives it. -/
theorem wcInfo_eq_ofNat (s : State) : wcInfo s = BitVec.ofNat 16 s.wc.toNat := (BitVec.ofNat_toNat 16 s.wc).symm

theorem withWord_error_of_ge {info : Arg} {k : Nat} {s : State} {go : Word → Result} (h : s.wc.toNat ≤ k) :
    withWord info k s go =
      .next { s with rsp := some (Response.error .indexOutOfRange info (BitVec.ofNat 16 s.wc.toNat)) } := by
  rw [withWord_of_ge h, wcInfo_eq_ofNat]
  rfl

/-- Under a legal `WC` the array has every word the check lets through. -/
theorem readWord_eq_some_of_lt_wc {s : State} {k : Nat} (hlt : k < s.wc.toNat) (hwc : s.wc.toNat ≤ 64) :
    ∃ w, readWord s k = some w :=
  readWord_eq_some_of_lt s (hlt.trans_le hwc)

/-! ## Allocation -/

theorem allocate_wc_toNat {n : Nat} (h : n ≤ 4096) (s : State) : (allocate n s).wc.toNat = (n + 63) / 64 := by
  rw [allocate_wc, wordsFor_eq, BitVec.toNat_ofNat]
  omega

theorem wcData_allocate {n : Nat} (h : n ≤ 4096) (s : State) :
    wcData (allocate n s) = BitVec.ofNat 64 ((n + 63) / 64) := by
  rw [← allocate_wc_toNat h s, BitVec.ofNat_toNat]
  rfl

/-! ## Words and bits after a write -/

theorem readWord_writeWord_of_lt (s : State) {k : Nat} (hk : k < 64) (v : Word) (j : Nat) :
    readWord (writeWord k v s) j = if j = k then some v else readWord s j := by
  rw [readWord_writeWord, if_pos hk]
  simp only [eq_comm]

/-- Writing the word held changes nothing. -/
theorem writeWord_bf_of_readWord {s : State} {k : Nat} {w : Word} (h : readWord s k = some w) :
    (writeWord k w s).bf = s.bf := by
  apply bf_eq_of_readWord
  intro j _
  by_cases hj : j = k
  · rw [hj, readWord_writeWord_self h, h]
  · rw [readWord_writeWord, if_neg (Ne.symm hj)]

theorem readBit_of_readWord {s : State} {i : Nat} {w : Word} (h : readWord s (wordIndex i) = some w) :
    readBit s i = w.getLsbD (bitIndex i) := by
  rw [readBit, h, Option.getD_some]

/-- Indices of one word differ in the bit they name (R41). -/
theorem bitIndex_eq_iff {i j : Nat} (h : wordIndex j = wordIndex i) : bitIndex j = bitIndex i ↔ j = i := by
  simp only [wordIndex, bitIndex, wordBits_eq] at *
  omega

/-- A word written with one bit inserted changes that bit alone, among all bits of the storage. -/
theorem readBit_writeWord_insertBit {s : State} {i : Nat} {w : Word} (h : readWord s (wordIndex i) = some w) (b : Bool)
    (j : Nat) :
    readBit (writeWord (wordIndex i) (insertBit w (bitIndex i) b) s) j = if j = i then b else readBit s j := by
  by_cases hword : wordIndex j = wordIndex i
  · have hold : readWord s (wordIndex j) = some w := by rw [hword, h]
    have hnew : readWord (writeWord (wordIndex i) (insertBit w (bitIndex i) b) s) (wordIndex j) =
        some (insertBit w (bitIndex i) b) := by rw [hword, readWord_writeWord_self h]
    have hbit : bitIndex j < 64 := Nat.mod_lt j (by decide)
    rw [readBit_of_readWord hnew, readBit_of_readWord hold, getLsbD_insertBit _ _ _ _ hbit]
    simp only [bitIndex_eq_iff hword]
  · have hne : j ≠ i := fun e => hword (congrArg wordIndex e)
    rw [readBit, readWord_writeWord, if_neg (Ne.symm hword), if_neg hne, readBit]

/-- A command that writes its word as it was leaves the block. -/
theorem withWord_sameBlock_of_self {info : Arg} {k : Nat} {s t : State} {f : Word → Word}
    (hf : ∀ w, readWord s k = some w → f w = w)
    (h : withWord info k s (fun w => respondOK 0 (writeWord k (f w) s)) = .next t) : t.SameBlock s := by
  rcases withWord_cases info k s (fun w => respondOK 0 (writeWord k (f w) s)) with
    ⟨_, e⟩ | ⟨_, w, hw, e⟩ | ⟨_, _, e⟩
  · cases e.symm.trans h; exact ⟨rfl, rfl, rfl⟩
  · cases e.symm.trans h
    rw [hf w hw]
    exact ⟨(writeWord_bf_of_readWord hw).symm, rfl, rfl⟩
  · cases e.symm.trans h

/-! ## GET and SET in terms of bits -/

/-- A GET in range answers its bit. -/
theorem execGet_of_lt {i : Arg} {s : State} (hlt : wordIndex i.toNat < s.wc.toNat) (hwc : s.wc.toNat ≤ 64) :
    exec (.get i) s = respondOK (if readBit s i.toNat then 1 else 0) s := by
  obtain ⟨w, hw⟩ := readWord_eq_some_of_lt_wc hlt hwc
  rw [readBit_of_readWord hw, ← bitWord_eq]
  exact withWord_of_lt hlt hw

/-- GET reads `WC` and its own bit, and nothing else. -/
theorem execGet_rsp_congr {i : Arg} {s t : State} (hwc : s.wc.toNat ≤ 64) (hsame : t.wc = s.wc)
    (hbit : readBit t i.toNat = readBit s i.toNat) :
    ∃ v v', exec (.get i) s = .next v ∧ exec (.get i) t = .next v' ∧ v'.rsp = v.rsp := by
  by_cases hlt : wordIndex i.toNat < s.wc.toNat
  · refine ⟨_, _, execGet_of_lt hlt hwc, execGet_of_lt (s := t) (by rwa [hsame]) (by rwa [hsame]), ?_⟩
    rw [respond_rsp, respond_rsp, hbit]
  · have hge : s.wc.toNat ≤ wordIndex i.toNat := Nat.le_of_not_lt hlt
    refine ⟨_, _, withWord_error_of_ge hge, withWord_error_of_ge (s := t) (by rwa [hsame]), ?_⟩
    simp only [hsame]

/-- A SET in range writes its bit and nothing else. -/
theorem execSet_of_lt {i : Arg} (b : Bool) {s : State} (hlt : wordIndex i.toNat < s.wc.toNat) (hwc : s.wc.toNat ≤ 64) :
    ∃ t, exec (.set i b) s = .next t ∧ (∀ j, readBit t j = if j = i.toNat then b else readBit s j) ∧
      t.wc = s.wc ∧ t.dn = s.dn ∧ t.rsp = some (Response.okay 0) ∧ t.SamePort s := by
  obtain ⟨w, hw⟩ := readWord_eq_some_of_lt_wc hlt hwc
  exact ⟨_, withWord_of_lt hlt hw, readBit_writeWord_insertBit hw b, rfl, rfl, rfl, rfl, rfl, rfl, rfl, rfl, rfl⟩

end Sys2Proof.Machine
end

section
/-! PROOFS. The statements of 40_bitfield.md: the five storage commands, and what follows of repeating and combining them. -/

namespace Sys2Proof.Machine

/-- Settles O14: up to 4096 bits the words asked for fit the array and `WC`'s 7 bits. -/
theorem newAllocatesZeroedWords : Obligations.NewAllocatesZeroedWords := by
  intro size s
  refine ⟨decode_encode_hdr (i := .new size) rfl, fun hle => ?_, fun hgt => execNew_of_gt hgt s⟩
  refine ⟨_, execNew_of_le hle s, allocate_wc_toNat hle s, fun k hk => ?_, rfl, ?_, rfl, rfl, rfl, rfl, rfl, rfl⟩
  · rw [readWord_respond, readWord_allocate s _ hk]
  · rw [respond_rsp, wcData_allocate hle]
    rfl

/-- Settles O15: what `execSet_of_lt` says of every bit. -/
theorem setWritesOneBit : Obligations.SetWritesOneBit := by
  intro i b s
  refine ⟨decode_encode_hdr (i := .set i b) rfl, fun hlt hwc => ?_, fun hge => withWord_error_of_ge hge⟩
  obtain ⟨t, ht, hbits, hrest⟩ := execSet_of_lt b hlt hwc
  exact ⟨t, ht, fun j _ => hbits j, hrest⟩

/-- Settles O16: the word the check lets through is there, and the answer is its bit. -/
theorem getReadsOneBit : Obligations.GetReadsOneBit := by
  intro i s
  refine ⟨decode_encode_hdr (i := .get i) rfl, fun hlt hwc => ?_, fun hge => withWord_error_of_ge hge⟩
  obtain ⟨w, hw⟩ := readWord_eq_some_of_lt_wc hlt hwc
  refine ⟨w, hw, ?_⟩
  rw [← bitWord_eq]
  exact withWord_of_lt hlt hw

/-- Settles O17: the word the check lets through is there, and it is the answer. -/
theorem readwReadsOneWord : Obligations.ReadwReadsOneWord := by
  intro k s
  refine ⟨decode_encode_hdr (i := .readw k) rfl, fun hlt hwc => ?_, fun hge => withWord_error_of_ge hge⟩
  obtain ⟨w, hw⟩ := readWord_eq_some_of_lt_wc hlt hwc
  exact ⟨w, hw, withWord_of_lt hlt hw⟩

/-- Settles O18: the word the check lets through is in the array, so the write lands. -/
theorem writewWritesOneWord : Obligations.WritewWritesOneWord := by
  intro k d s
  refine ⟨decode_encode_hdr (i := .writew k d) rfl d, fun hlt hwc => ?_, fun hge => withWord_error_of_ge hge⟩
  obtain ⟨w, hw⟩ := readWord_eq_some_of_lt_wc hlt hwc
  exact ⟨_, withWord_of_lt hlt hw, readWord_writeWord_of_lt s (hlt.trans_le hwc) d, rfl, rfl, rfl,
    rfl, rfl, rfl, rfl, rfl, rfl⟩

/-- Settles O29: `WC`'s writers among the instructions, and ILLEGAL writes nothing. -/
theorem capacityIsFixedBetweenAllocations : Obligations.CapacityIsFixedBetweenAllocations := by
  intro c s t h hne
  rcases perform_cases c s with ⟨i, hd, e⟩ | ⟨_, _, e⟩
  · obtain ⟨hwriters, _, _⟩ := onlyNamedCommandsWriteRegisters i s t (e.symm.trans h)
    rcases hwriters hne with ⟨size, rfl⟩ | ⟨q, o, n, rfl⟩
    · exact .inl ⟨size, hd⟩
    · exact .inr ⟨q, o, n, hd⟩
  · cases e.symm.trans h
    exact (hne rfl).elim

/-- Settles O35: the second time is `exec_again`; inserting the bit a word holds gives that word. -/
theorem rewritingSameValueChangesNothing : Obligations.RewritingSameValueChangesNothing := by
  refine ⟨fun i b s t h => ⟨⟨t, exec_again h, .refl t⟩, fun hheld => ?_⟩,
    fun k d s t h => ⟨⟨t, exec_again h, .refl t⟩, fun hheld => ?_⟩⟩
  · refine withWord_sameBlock_of_self (f := fun w => insertBit w (bitIndex i.toNat) b) (fun w hw => ?_) h
    rw [← hheld, readBit_of_readWord hw, insertBit_self]
  · exact withWord_sameBlock_of_self (f := fun _ => d) (fun w hw => Option.some.inj (hheld.symm.trans hw)) h

/-- Settles O36: GET reads `WC`, which SET leaves alone, and its bit, which SET writes for its own index only. -/
theorem getAfterSet : Obligations.GetAfterSet := by
  intro s i b hwc hlt
  obtain ⟨t, ht, hbits, hsame, _⟩ := execSet_of_lt b hlt hwc
  refine ⟨t, _, ht, execGet_of_lt (s := t) (by rwa [hsame]) (by rwa [hsame]), ?_, fun j hne => ?_⟩
  · rw [respond_rsp, hbits, if_pos rfl]
    rfl
  · have hj : j.toNat ≠ i.toNat := fun e => hne (BitVec.eq_of_toNat_eq e)
    exact execGet_rsp_congr hwc hsame (by rw [hbits, if_neg hj])

end Sys2Proof.Machine
end

section
/-! SUPPORT. The codec commands (41_codec.md R102 to R107) operand by operand: within the capacity, beyond it, and bit by
bit what they answer and write. -/

namespace Sys2Proof.Machine

/-! ## Masks -/

/-- The mask of the fixed codec keeps the bits of the flags sent, up to the width. -/
theorem getLsbD_and_lowmask_min (d : Word) (n w : Nat) {j : Nat} (hj : j < 64) :
    (d &&& lowmask (min n w)).getLsbD j = (decide (j < n) && decide (j < w) && d.getLsbD j) := by
  rw [BitVec.getLsbD_and, getLsbD_lowmask, decide_eq_true hj, Bool.true_and, Bool.and_comm]
  simp only [Nat.lt_min, Bool.decide_and]

/-- The mask of a chunk keeps the bits of the flags below the count. -/
theorem getLsbD_and_lowmask_chunkFlags (d : Word) (dn k : Nat) {j : Nat} (hj : j < 64) :
    (d &&& lowmask (chunkFlags dn k)).getLsbD j = (decide (64 * k + j < dn) && d.getLsbD j) := by
  rw [BitVec.getLsbD_and, getLsbD_lowmask, decide_eq_true hj, Bool.true_and, Bool.and_comm]
  simp only [lt_chunkFlags dn k j hj]

/-! ## The overflow check (R101) -/

theorem withCapacity_error_of_gt {n : Arg} {cap : Nat} {ovf : Bool} {s : State} {go : Result} (h : cap < n.toNat)
    (ho : ovf = false) :
    withCapacity n cap ovf s go =
      .next { s with rsp := some (Response.error .overflow n (BitVec.ofNat 16 cap)) } := by
  rcases withCapacity_cases n cap ovf s go with ⟨_, _, e⟩ | ⟨hle | hovf, _⟩
  · exact e
  · omega
  · cases hovf.symm.trans ho

/-! ## PACK.FIX and UNPACK.FIX -/

theorem fixedCodec_of_fits {w : Width} {ovf : Bool} {n : Arg} (h : n.toNat ≤ widthBits w ∨ ovf = true) (d : Word)
    (s : State) :
    fixedCodec w ovf n d s =
      .next { s with rsp := some (Response.okay (d &&& lowmask (min n.toNat (widthBits w)))) } :=
  withCapacity_of_fits h s _

/-- The fixed codec answers OVERFLOW exactly on the condition of R101, in which the datum and the state have no part. -/
theorem fixedCodec_overflow_iff (w : Width) (ovf : Bool) (n : Arg) (d : Word) (s : State) :
    (∃ t r, fixedCodec w ovf n d s = .next t ∧ t.rsp = some r ∧ r.status = .overflow) ↔
      widthBits w < n.toNat ∧ ovf = false := by
  constructor
  · rintro ⟨t, r, h, hr, hst⟩
    rcases withCapacity_cases n (widthBits w) ovf s
        (respondOK (d &&& lowmask (min n.toNat (widthBits w))) s) with ⟨hlt, ho, _⟩ | ⟨_, e⟩
    · exact ⟨hlt, ho⟩
    · cases e.symm.trans h
      cases hr
      cases hst
  · rintro ⟨hlt, ho⟩
    exact ⟨_, _, withCapacity_error_of_gt hlt ho, rfl, rfl⟩

/-! ## PACK.DYN and UNPACK.DYN -/

theorem execPackDyn_of_fits {ovf : Bool} {n : Arg} (h : n.toNat ≤ 4096 ∨ ovf = true) (wsel : BitVec 3) (s : State) :
    exec (.packDyn wsel ovf n) s =
      respondOK (BitVec.ofNat 64 ((min n.toNat 4096 + 63) / 64))
        (writeDN (min n.toNat 4096) (allocate (min n.toNat 4096) s)) := by
  rw [← wcData_allocate (Nat.min_le_right _ _) s]
  exact withCapacity_of_fits h s _

theorem execUnpackDyn_of_fits {ovf : Bool} {n : Arg} {s : State} (h : n.toNat ≤ 64 * s.wc.toNat ∨ ovf = true)
    (wsel : BitVec 3) :
    exec (.unpackDyn wsel ovf n) s =
      .next { s with dn := n, rsp := some (Response.okay (BitVec.ofNat 64 ((n.toNat + 63) / 64))) } := by
  have hdn : writeDN n.toNat s = { s with dn := n } := by rw [writeDN, BitVec.ofNat_toNat, BitVec.setWidth_eq]
  calc exec (.unpackDyn wsel ovf n) s
      = respondOK (BitVec.ofNat 64 ((n.toNat + 63) / 64)) (writeDN n.toNat s) := withCapacity_of_fits h s _
    _ = _ := by rw [hdn]; rfl

/-! ## DPUT and DGET -/

/-- A DPUT in range writes its word, masked to the flags below `DN`, and nothing else. -/
theorem execDput_of_lt {k : Arg} (d : Word) {s : State} (hlt : k.toNat < s.wc.toNat) (hwc : s.wc.toNat ≤ 64) :
    exec (.dput k d) s = respondOK 0 (writeWord k.toNat (d &&& lowmask (chunkFlags s.dn.toNat k.toNat)) s) := by
  obtain ⟨_, hw⟩ := readWord_eq_some_of_lt_wc hlt hwc
  exact withWord_of_lt hlt hw

end Sys2Proof.Machine
end

section
/-! PROOFS. The statements of 41_codec.md about single commands: the six codec commands, the fixed round trip and the
overflow check of the two directions. -/

namespace Sys2Proof.Machine

/-- Settles O19: the mask of `min(n, W)` bits, or R101's error. -/
theorem packFixAnswersMaskedFlags : Obligations.PackFixAnswersMaskedFlags := by
  rintro sel _ ovf n d s rfl
  refine ⟨?_, widthBits_widthOfSel sel, fun h => ⟨_, fixedCodec_of_fits h d s, fun j hj => ?_⟩,
    fun hlt ho => withCapacity_error_of_gt hlt ho⟩
  · rw [← wselOfWidth_widthOfSel_low]
    exact decode_encode (i := .packFix (widthOfSel sel) ovf n d) rfl
  · exact getLsbD_and_lowmask_min d _ _ hj

/-- Settles O20: UNPACK.FIX runs the codec of PACK.FIX, so only its encoding is new. -/
theorem unpackFixAnswersMaskedFlags : Obligations.UnpackFixAnswersMaskedFlags := by
  rintro sel w ovf n p s rfl
  obtain ⟨_, hwidth, hfits, herror⟩ := packFixAnswersMaskedFlags sel _ ovf n p s rfl
  refine ⟨?_, hwidth, hfits, herror, rfl⟩
  rw [← wselOfWidth_widthOfSel_low]
  exact decode_encode (i := .unpackFix (widthOfSel sel) ovf n p) rfl

/-- Settles O21: `min(n, 4096)` bits fit `WC` and `DN`. -/
theorem packDynAllocatesForFlagCount : Obligations.PackDynAllocatesForFlagCount := by
  intro wsel ovf n s
  have hle : min n.toNat 4096 ≤ 4096 := Nat.min_le_right _ _
  refine ⟨fun hsel => decode_encode_hdr (i := .packDyn wsel ovf n) (top_of_four_le hsel), fun h => ?_,
    fun hlt ho => withCapacity_error_of_gt hlt ho⟩
  refine ⟨_, execPackDyn_of_fits h wsel s, ?_, allocate_wc_toNat hle s,
    fun k hk => readWord_allocate s (min n.toNat 4096) hk, rfl, rfl, rfl, rfl, rfl, rfl, rfl⟩
  rw [respond_dn, writeDN_dn, BitVec.toNat_ofNat]
  omega

/-- Settles O22: the word the check lets through is in the array, so the masked chunk lands. -/
theorem dputWritesMaskedChunk : Obligations.DputWritesMaskedChunk := by
  intro k d s
  refine ⟨decode_encode_hdr (i := .dput k d) rfl d, fun hlt hwc => ?_, fun hge => withWord_error_of_ge hge⟩
  exact ⟨_, _, execDput_of_lt d hlt hwc, readWord_writeWord_of_lt s (hlt.trans_le hwc) _,
    fun j hj => getLsbD_and_lowmask_chunkFlags d _ _ hj, rfl, rfl, rfl, rfl, rfl, rfl, rfl, rfl, rfl⟩

/-- Settles O23: the capacity of the check is `64 * WC`. -/
theorem unpackDynSetsFlagCount : Obligations.UnpackDynSetsFlagCount := by
  intro wsel ovf n s
  exact ⟨fun hsel => decode_encode_hdr (i := .unpackDyn wsel ovf n) (top_of_four_le hsel),
    fun h => execUnpackDyn_of_fits h wsel, fun hlt ho => withCapacity_error_of_gt hlt ho⟩

/-- Settles O24: the word below `WC` is there, and its mask keeps the flags below `DN`. -/
theorem dgetReadsMaskedChunk : Obligations.DgetReadsMaskedChunk := by
  intro k s
  refine ⟨decode_encode_hdr (i := .dget k) rfl, fun hlt hwc => ?_, fun hge => execDget_of_ge hge⟩
  obtain ⟨w, hw⟩ := readWord_eq_some_of_lt_wc hlt hwc
  exact ⟨w, _, hw, execDget_of_lt hlt hw, fun j hj => getLsbD_and_lowmask_chunkFlags w _ _ hj⟩

/-- Settles O37: the second mask is the first one again. -/
theorem fixedRoundTrip : Obligations.FixedRoundTrip := by
  intro w o n d s
  refine ⟨fun h => ?_, fun hlt ho p =>
    ⟨_, _, withCapacity_error_of_gt hlt ho, withCapacity_error_of_gt hlt ho, rfl, rfl⟩⟩
  refine ⟨_, _, _, _, fixedCodec_of_fits h d s, rfl, fixedCodec_of_fits h _ _, rfl, fun j hj => ?_⟩
  rw [getLsbD_and_lowmask_min _ _ _ hj, getLsbD_and_lowmask_min _ _ _ hj, ← Bool.and_assoc, Bool.and_self]

/-- Settles O38: the fixed check reads neither datum nor state; a dynamic pack leaves room for its count. -/
theorem overflowCheckIsSymmetric : Obligations.OverflowCheckIsSymmetric := by
  refine ⟨fun w o n d p s => (fixedCodec_overflow_iff w o n d s).trans (fixedCodec_overflow_iff w o n p s).symm,
    fun q q' o o' n s t hn h u hu => ?_⟩
  have hwc : t.wc.toNat = (n.toNat + 63) / 64 := by
    cases (execPackDyn_of_fits (.inl hn) q s).symm.trans h
    rw [respond_wc, writeDN_wc, Nat.min_eq_left hn, allocate_wc_toNat hn]
  have hfits : n.toNat ≤ 64 * u.wc.toNat := by rw [hu, hwc]; omega
  exact ⟨_, _, execUnpackDyn_of_fits (.inl hfits) q', rfl, rfl⟩

end Sys2Proof.Machine
end

section
/-! SUPPORT. Commands sent one after another to an idle block, each answered by a success: what the host's procedures
(41_codec.md R112) and the runs of R175 have in common. -/

namespace Sys2Proof.Machine

theorem perform_encode {i : Instr} (h : i.wellFormed = true) (s : State) : perform (encode i) s = exec i s :=
  perform_of_decode (decode_encode h) s

theorem toNat_ofNat_arg {k : Nat} (h : k < 65536) : (BitVec.ofNat 16 k).toNat = k := by
  rw [BitVec.toNat_ofNat]
  omega

/-- The words for `n` flags, as a response carries their number. -/
theorem toNat_ofNat_words {n : Nat} (h : n < 65536) : (BitVec.ofNat 64 ((n + 63) / 64)).toNat = (n + 63) / 64 := by
  rw [BitVec.toNat_ofNat]
  omega

@[simp] theorem Response.okay_data (d : Word) : (Response.okay d).data = d := rfl

theorem map_data_okay (ds : List Word) : (ds.map Response.okay).map (·.data) = ds :=
  (List.map_map ..).trans (List.map_id ds)

theorem State.SameBlock.dn_eq {s t : State} (h : t.SameBlock s) : t.dn = s.dn := by
  obtain ⟨_, _, hdn⟩ := h
  exact hdn.symm

/-! ## The relation -/

/-- From `s` to `t` the idle block performs the commands one by one, each response taken before the next command and each
a success; the list of words is what they carry. -/
inductive Succeeds : State → List Command → List Word → State → Prop
  | nil (s : State) : Succeeds s [] [] s
  | cons {s u t : State} {c : Command} {cs : List Command} {d : Word} {ds : List Word} :
      s.busy = false → perform c s = .next u → u.rsp = some (Response.okay d) →
      Succeeds (afterExchange s u (Response.okay d)) cs ds t → Succeeds s (c :: cs) (d :: ds) t

namespace Succeeds

variable {s t u : State} {cs cs' : List Command} {ds ds' : List Word}

theorem append (h : Succeeds s cs ds t) (h' : Succeeds t cs' ds' u) : Succeeds s (cs ++ cs') (ds ++ ds') u := by
  induction h with
  | nil => exact h'
  | cons hb hp hr _ ih => exact .cons hb hp hr (ih h')

theorem busy (h : Succeeds s cs ds t) (hb : s.busy = false) : t.busy = false := by
  induction h with
  | nil => exact hb
  | cons _ _ _ _ ih => exact ih rfl

theorem taken (h : Succeeds s cs ds t) : t.taken = s.taken ++ ds.map Response.okay := by
  induction h with
  | nil => simp
  | cons _ _ _ _ ih => rw [ih, afterExchange_taken, List.append_assoc, List.map_cons, List.singleton_append]

theorem accepted (h : Succeeds s cs ds t) : t.accepted = s.accepted + cs.length := by
  induction h with
  | nil => rfl
  | cons _ _ _ _ ih => rw [ih, afterExchange_accepted, List.length_cons]; omega

theorem allOk (h : Succeeds s cs ds t) : AllOk (newResponses s t) := by
  rw [newResponses, h.taken, List.drop_left]
  intro r hr
  obtain ⟨d, _, rfl⟩ := List.mem_map.mp hr
  rfl

/-! ## What gives it -/

/-- One instruction that answers a success. -/
theorem of_exec {i : Instr} {d : Word} (hwf : i.wellFormed = true) (hb : s.busy = false) (h : exec i s = .next u)
    (hr : u.rsp = some (Response.okay d)) : ∃ t, Succeeds s [encode i] [d] t ∧ t.SameBlock u :=
  ⟨_, .cons hb ((perform_encode hwf s).trans h) hr (.nil _), rfl, rfl, rfl⟩

/-- A loop of instructions under an invariant `I` of the block that each turn carries on. -/
theorem loop {instr : Nat → Instr} {ans : Nat → Word} {I : Nat → State → Prop}
    (hwf : ∀ k, (instr k).wellFormed = true) (hcongr : ∀ k s t, I k s → t.SameBlock s → I k t) (m : Nat)
    (hturn : ∀ k < m, ∀ s, I k s →
      ∃ u, exec (instr k) s = .next u ∧ u.rsp = some (Response.okay (ans k)) ∧ I (k + 1) u)
    (hb : s.busy = false) (h0 : I 0 s) :
    ∃ t, Succeeds s ((List.range m).map fun k => encode (instr k)) ((List.range m).map ans) t ∧ I m t := by
  induction m with
  | zero => exact ⟨s, .nil s, h0⟩
  | succ m ih =>
    obtain ⟨t, hst, hI⟩ := ih fun k hk => hturn k (Nat.lt_succ_of_lt hk)
    obtain ⟨u, hexec, hr, hI'⟩ := hturn m (Nat.lt_succ_self m) t hI
    obtain ⟨v, htv, hsame⟩ := of_exec (hwf m) (hst.busy hb) hexec hr
    refine ⟨v, ?_, hcongr _ u v hI' hsame⟩
    rw [List.range_succ, List.map_append, List.map_append]
    exact hst.append htv

/-! ## What follows of it -/

/-- A procedure goes on after the commands with their answers. -/
theorem run_sendAll {α : Type} (h : Succeeds s cs ds t) (next : List Response → Proc α) :
    (sendAll cs next).run s = (next (ds.map Response.okay)).run t := by
  induction h generalizing next with
  | nil => rfl
  | cons hb hp hr _ ih => rw [sendAll_cons, run_sendOk_of_ok _ hb hp hr rfl, ih]; rfl

theorem run_sendOk {α : Type} {c : Command} {d : Word} (h : Succeeds s [c] [d] t) (next : Response → Proc α) :
    (sendOk c next).run s = (next (Response.okay d)).run t :=
  h.run_sendAll fun rs => next (rs.headD (Response.okay d))

end Succeeds

/-! ## Runs of the machine -/

/-- Two steps of an idle block whose host sends a command and takes its response. -/
theorem runSteps_two_of_idle {c : Command} {s u : State} {r : Response} (hb : s.busy = false)
    (hp : perform c s = .next u) (hr : u.rsp = some r) (rest : List HostInput) :
    runSteps 2 { s with inputs := .send c :: .take :: rest } = .next { afterExchange s u r with inputs := rest } := by
  obtain ⟨_, _, _, _, _, hresets, _⟩ := perform_next hp
  have hq : perform c { s with inputs := .take :: rest } =
      mapNext (State.setPort ⟨s.busy, s.wait, s.accepted, s.resets, .take :: rest, s.taken⟩) (perform c s) :=
    perform_setPort ⟨s.busy, s.wait, s.accepted, s.resets, .take :: rest, s.taken⟩ c s
  have hsend : step { s with inputs := .send c :: .take :: rest } = accept c 0 { s with inputs := .take :: rest } :=
    handshake_send (s := { s with inputs := .send c :: .take :: rest }) rfl hb
  rw [runSteps_succ, hsend, accept_eq, hq, hp, mapNext_next, mapNext_next, andThen_next, runSteps_succ,
    step_eq_handshake, handshake_take (rest := rest) rfl]
  simp [State.setPort, takeResponse, hr, afterExchange, hresets]

/-- The machine runs such commands to the same state, their script read to its end. -/
theorem Succeeds.runs {s t : State} {cs : List Command} {ds : List Word} (h : Succeeds s cs ds t) :
    Runs cs s { t with inputs := [] } := by
  induction h with
  | nil => rfl
  | @cons s u t c cs d ds hb hp hr _ ih =>
    show runSteps (2 * (cs.length + 1)) { s with inputs := .send c :: .take :: script cs } = _
    rw [Nat.mul_succ, Nat.add_comm, runSteps_add, runSteps_two_of_idle hb hp hr, andThen_next]
    exact ih

end Sys2Proof.Machine
end

section
/-! SUPPORT. Any error response ends a host procedure (41_codec.md R112): said once of what the procedures are built
from. -/

namespace Sys2Proof.Machine

section
variable {α : Type}

/-- What a procedure's ending says of the responses it took: all are successes, but for the last one if the procedure
ends in that error. -/
def EndsWith : Except HostFailure α → List Response → Prop
  | .error (.errorResponse r), rs => r.status ≠ .ok ∧ ∃ rs', rs = rs' ++ [r] ∧ AllOk rs'
  | _, rs => AllOk rs

/-- Run on an idle block the procedure takes some responses and ends as these allow. -/
def Proc.EndsAtFirstError (p : Proc α) : Prop :=
  ∀ s : State, s.Inv → s.busy = false → ∃ rs, (p.run s).2.taken = s.taken ++ rs ∧ EndsWith (p.run s).1 rs

theorem allOk_nil : AllOk [] := nofun

theorem AllOk.cons {r : Response} {rs : List Response} (hr : r.status = .ok) (h : AllOk rs) : AllOk (r :: rs) :=
  List.forall_mem_cons.mpr ⟨hr, h⟩

/-- A success before the responses taken does not change how they end. -/
theorem EndsWith.cons {e : Except HostFailure α} {r : Response} {rs : List Response} (hr : r.status = .ok)
    (h : EndsWith e rs) : EndsWith e (r :: rs) := by
  rcases e with (r' | n | _) | a
  · obtain ⟨hr', rs', rfl, hok⟩ := h
    exact ⟨hr', r :: rs', rfl, hok.cons hr⟩
  · exact AllOk.cons hr h
  · exact AllOk.cons hr h
  · exact AllOk.cons hr h

theorem endsAtFirstError_done (a : α) : (Proc.done a).EndsAtFirstError :=
  fun _ _ _ => ⟨[], (List.append_nil _).symm, allOk_nil⟩

theorem endsAtFirstError_sendOk (c : Command) {next : Response → Proc α} (h : ∀ r, (next r).EndsAtFirstError) :
    (sendOk c next).EndsAtFirstError := by
  intro s hs hb
  obtain ⟨u, hu⟩ := perform_completes hs.wc_le c
  obtain ⟨r, hr, _⟩ := perform_next hu
  rcases run_sendOk next hb hu hr with ⟨hok, e⟩ | ⟨herr, e⟩
  · obtain ⟨rs, htaken, hends⟩ := h r _ (afterExchange_inv (s := s) r (perform_wc_le hs.wc_le hu)) rfl
    refine ⟨r :: rs, ?_, ?_⟩
    · rw [e, htaken, afterExchange_taken, List.append_assoc, List.singleton_append]
    · rw [e]
      exact hends.cons hok
  · rw [e]
    exact ⟨[r], rfl, herr, [], rfl, allOk_nil⟩

theorem endsAtFirstError_sendAll (cs : List Command) {next : List Response → Proc α}
    (h : ∀ rs, (next rs).EndsAtFirstError) : (sendAll cs next).EndsAtFirstError := by
  induction cs generalizing next with
  | nil => exact h []
  | cons c cs ih => exact endsAtFirstError_sendOk c fun r => ih fun rs => h (r :: rs)

theorem endsAtFirstError_withArg (n : Nat) {next : Arg → Proc α} (h : ∀ a, (next a).EndsAtFirstError) :
    (withArg n next).EndsAtFirstError := by
  rcases Nat.lt_or_ge n 65536 with hlt | hge
  · rw [withArg_of_lt hlt]
    exact h _
  · rw [withArg_of_ge hge]
    exact fun _ _ _ => ⟨[], (List.append_nil _).symm, allOk_nil⟩

end

/-! ## pack and unpack -/

theorem endsAtFirstError_packFixed (w : Width) (f : List Bool) (o : Bool) : (packFixed w f o).EndsAtFirstError :=
  endsAtFirstError_withArg _ fun _ => endsAtFirstError_sendOk _ fun _ => endsAtFirstError_done _

theorem endsAtFirstError_packDynamic (f : List Bool) (o : Bool) : (packDynamic f o).EndsAtFirstError :=
  endsAtFirstError_withArg _ fun _ => endsAtFirstError_sendOk _ fun _ => endsAtFirstError_sendAll _ fun _ =>
    endsAtFirstError_sendAll _ fun _ => endsAtFirstError_done _

theorem endsAtFirstError_pack (f : List Bool) (width : WordWidth) (o : Bool) : (pack f width o).EndsAtFirstError :=
  match width with
  | .fixed w => endsAtFirstError_packFixed w f o
  | .auto => endsAtFirstError_packDynamic f o
  | .unrecognised => endsAtFirstError_packDynamic f o

theorem endsAtFirstError_unpackFixed (w : Width) (p : BitVec (widthBits w)) (n : Nat) (o : Bool) :
    (unpackFixed w p n o).EndsAtFirstError :=
  endsAtFirstError_withArg _ fun _ => endsAtFirstError_sendOk _ fun _ => endsAtFirstError_done _

theorem endsAtFirstError_unpackDynamic (ws : List Word) (n : Nat) (o : Bool) :
    (unpackDynamic ws n o).EndsAtFirstError :=
  endsAtFirstError_withArg _ fun _ => endsAtFirstError_withArg _ fun _ => endsAtFirstError_sendOk _ fun _ =>
    endsAtFirstError_sendAll _ fun _ => endsAtFirstError_sendOk _ fun _ => endsAtFirstError_sendAll _ fun _ =>
      endsAtFirstError_done _

theorem endsAtFirstError_unpack (width : WordWidth) (p : Packed width) (n : Nat) (o : Bool) :
    (unpack width p n o).EndsAtFirstError :=
  match width, p with
  | .fixed w, p => endsAtFirstError_unpackFixed w p n o
  | .auto, p => endsAtFirstError_unpackDynamic p n o
  | .unrecognised, p => endsAtFirstError_unpackDynamic p n o

/-- What a run of such a procedure says of the responses between its two states. -/
theorem Proc.EndsAtFirstError.newResponses {α : Type} {p : Proc α} (hp : p.EndsAtFirstError) {s t : State}
    {e : Except HostFailure α} (hs : s.Inv) (hb : s.busy = false) (h : p.run s = (e, t)) :
    EndsWith e (newResponses s t) := by
  obtain ⟨rs, htaken, hends⟩ := hp s hs hb
  rw [h] at htaken hends
  rwa [Machine.newResponses, htaken, List.drop_left]

end Sys2Proof.Machine
end

section
/-! SUPPORT. Flag sequences in chunks (00_scope.md R12): on the host's side, in a packed word sequence and in the
storage. -/

namespace Sys2Proof.Machine

/-! ## Chunks -/

theorem flagAt_of_ge {f : List Bool} {i : Nat} (h : f.length ≤ i) : flagAt f i = false :=
  List.getD_eq_default f false h

theorem flagAt_take (f : List Bool) (m i : Nat) : flagAt (f.take m) i = (decide (i < m) && flagAt f i) := by
  by_cases h : i < m
  · simp [flagAt, List.getD_eq_getElem?_getD, h]
  · rw [flagAt_of_ge ((List.length_take_le m f).trans (Nat.le_of_not_lt h)), decide_eq_false h, Bool.false_and]

theorem getLsbD_chunkOf (f : List Bool) (k : Nat) {j : Nat} (hj : j < 64) :
    (chunkOf f k).getLsbD j = flagAt f (64 * k + j) := by
  rw [chunkOf, getLsbD_packBits _ _ _ hj, decide_eq_true hj, Bool.true_and]

/-- Enough chunks of a sequence give its flags back, missing ones false. -/
theorem flagsOf_chunks {g : List Bool} {m : Nat} (h : g.length ≤ 64 * m) (n : Nat) :
    flagsOf n ((List.range m).map (chunkOf g)) = (List.range n).map (flagAt g) := by
  refine List.map_congr_left fun i _ => ?_
  by_cases hi : i / 64 < m
  · have hget : ((List.range m).map (chunkOf g)).getD (i / 64) 0 = chunkOf g (i / 64) := by
      simp [List.getD_eq_getElem?_getD, hi]
    rw [hget, getLsbD_chunkOf g _ (Nat.mod_lt i (by decide)), Nat.div_add_mod]
  · have hget : ((List.range m).map (chunkOf g)).getD (i / 64) 0 = 0 :=
      List.getD_eq_default _ 0 (by rw [List.length_map, List.length_range]; omega)
    rw [hget, flagAt_of_ge (by omega)]
    exact BitVec.getLsbD_zero

theorem map_flagAt_range {g : List Bool} {n : Nat} (h : g.length ≤ n) :
    (List.range n).map (flagAt g) = g ++ List.replicate (n - g.length) false := by
  apply List.ext_getElem
  · simp only [List.length_map, List.length_range, List.length_append, List.length_replicate]
    omega
  · intro i _ _
    rw [List.getElem_map, List.getElem_range, List.getElem_append]
    split
    · next hi => exact List.getD_eq_getElem g false hi
    · next hi => rw [flagAt_of_ge (Nat.le_of_not_lt hi), List.getElem_replicate]

/-- Flags at or beyond the count are not asked for, so masking the chunks to the count loses nothing. -/
theorem flagsOf_masked (ws : List Word) (n : Nat) :
    flagsOf n ((List.range ((n + 63) / 64)).map fun k => ws.getD k 0 &&& lowmask (chunkFlags n k)) = flagsOf n ws := by
  refine List.map_congr_left fun i hi => ?_
  have hin : i < n := List.mem_range.mp hi
  have hk : i / 64 < (n + 63) / 64 := by omega
  have hget : ((List.range ((n + 63) / 64)).map fun k => ws.getD k 0 &&& lowmask (chunkFlags n k)).getD (i / 64) 0 =
      ws.getD (i / 64) 0 &&& lowmask (chunkFlags n (i / 64)) := by
    simp [List.getD_eq_getElem?_getD, hk]
  rw [hget, getLsbD_and_lowmask_chunkFlags _ _ _ (Nat.mod_lt i (by decide)), Nat.div_add_mod, decide_eq_true hin,
    Bool.true_and]

/-! ## The bits of the storage -/

theorem readBit_writeWord (s : State) {k : Nat} (hk : k < 64) (v : Word) (i : Nat) :
    readBit (writeWord k v s) i = if i / 64 = k then v.getLsbD (i % 64) else readBit s i := by
  have hindex : i / 64 = wordIndex i := rfl
  rw [readBit, readWord_writeWord_of_lt s hk, hindex]
  split
  · rfl
  · rfl

theorem readBit_allocate (n : Nat) (s : State) (i : Nat) : readBit (allocate n s) i = false := by
  rw [readBit]
  rcases Nat.lt_or_ge (wordIndex i) 64 with h | h
  · rw [readWord_allocate s n h]
    exact BitVec.getLsbD_zero
  · rw [readWord_eq_none_of_ge _ h]
    exact BitVec.getLsbD_zero

theorem getLsbD_of_readWord {s : State} {k j : Nat} {w : Word} (h : readWord s k = some w) (hj : j < 64) :
    w.getLsbD j = readBit s (64 * k + j) := by
  have hword : wordIndex (64 * k + j) = k := by rw [wordIndex, wordBits_eq]; omega
  have hbit : bitIndex (64 * k + j) = j := by rw [bitIndex, wordBits_eq]; omega
  rw [readBit, hword, h, hbit, Option.getD_some]

/-- Storages with the same bits are the same. -/
theorem bf_eq_of_readBit {s t : State} (h : ∀ i, readBit t i = readBit s i) : t.bf = s.bf := by
  refine bf_eq_of_readWord fun k hk => ?_
  obtain ⟨v, hv⟩ := readWord_eq_some_of_lt t hk
  obtain ⟨w, hw⟩ := readWord_eq_some_of_lt s hk
  rw [hv, hw]
  congr 1
  apply BitVec.eq_of_getLsbD_eq
  intro j hj
  rw [getLsbD_of_readWord hv hj, getLsbD_of_readWord hw hj, h]

/-! ## Flags in the storage: PACK.DYN, then SET or DPUT, then READW -/

/-- A dynamic pack of `m` flags has begun, the first `c` flags of `f` stand in the storage and every other bit is 0. -/
structure HoldsFlags (f : List Bool) (m c : Nat) (s : State) : Prop where
  le : m ≤ 4096
  wc : s.wc.toNat = (m + 63) / 64
  dn : s.dn.toNat = m
  bits : ∀ i, readBit s i = (decide (i < c) && flagAt f i)

namespace HoldsFlags

variable {f : List Bool} {m c : Nat} {s t : State}

theorem congr (h : HoldsFlags f m c s) (hsame : t.SameBlock s) : HoldsFlags f m c t := by
  obtain ⟨hbf, hwc, hdn⟩ := hsame
  exact ⟨h.le, by rw [← hwc, h.wc], by rw [← hdn, h.dn], fun i => by rw [← readBit_congr hbf, h.bits]⟩

theorem wc_le (h : HoldsFlags f m c s) : s.wc.toNat ≤ 64 := by
  obtain ⟨hle, hwc, -, -⟩ := h
  omega

/-- The index of a chunk in use is an `arg` that passes the capacity check. -/
theorem chunk_arg (h : HoldsFlags f m c s) {k : Nat} (hk : k < (m + 63) / 64) :
    (BitVec.ofNat 16 k).toNat = k ∧ (BitVec.ofNat 16 k).toNat < s.wc.toNat := by
  have hm := h.le
  have harg : (BitVec.ofNat 16 k).toNat = k := toNat_ofNat_arg (by omega)
  exact ⟨harg, by rw [harg, h.wc]; exact hk⟩

theorem packDyn (f : List Bool) {n : Arg} {o : Bool} (hfits : n.toNat ≤ 4096 ∨ o = true) (s : State) :
    ∃ u, exec (.packDyn 4 o n) s = .next u ∧
      u.rsp = some (Response.okay (BitVec.ofNat 64 ((min n.toNat 4096 + 63) / 64))) ∧
      HoldsFlags f (min n.toNat 4096) 0 u := by
  have hle : min n.toNat 4096 ≤ 4096 := Nat.min_le_right _ _
  exact ⟨_, execPackDyn_of_fits hfits 4 s, rfl, hle, allocate_wc_toNat hle s, toNat_ofNat_arg (by omega),
    readBit_allocate (min n.toNat 4096) s⟩

/-- SET puts the next flag. -/
theorem set (h : HoldsFlags f m c s) (hc : c < m) :
    ∃ u, exec (.set (BitVec.ofNat 16 c) (flagAt f c)) s = .next u ∧ u.rsp = some (Response.okay 0) ∧
      HoldsFlags f m (c + 1) u := by
  have hm := h.le
  have harg : (BitVec.ofNat 16 c).toNat = c := toNat_ofNat_arg (by omega)
  have hlt : wordIndex (BitVec.ofNat 16 c).toNat < s.wc.toNat := by
    rw [harg, h.wc, wordIndex, wordBits_eq]
    omega
  obtain ⟨u, hu, hbits, hwc, hdn, hr, _⟩ := execSet_of_lt (flagAt f c) hlt h.wc_le
  refine ⟨u, hu, hr, hm, hwc ▸ h.wc, hdn ▸ h.dn, fun i => ?_⟩
  rw [hbits, harg, h.bits]
  split
  · next e => simp [e]
  · next e => congr 2; exact propext (by omega)

/-- DPUT puts the next chunk, of which no more than `m` flags count. -/
theorem dput {k : Nat} (h : HoldsFlags f m (min (64 * k) m) s) (hk : k < (m + 63) / 64) :
    ∃ u, exec (.dput (BitVec.ofNat 16 k) (chunkOf f k)) s = .next u ∧ u.rsp = some (Response.okay 0) ∧
      HoldsFlags f m (min (64 * (k + 1)) m) u := by
  have hm := h.le
  obtain ⟨harg, hlt⟩ := h.chunk_arg hk
  have hexec := execDput_of_lt (chunkOf f k) hlt h.wc_le
  rw [harg, h.dn] at hexec
  refine ⟨_, hexec, rfl, hm, h.wc, h.dn, fun i => ?_⟩
  have hmod : i % 64 < 64 := Nat.mod_lt i (by decide)
  refine (readBit_writeWord s (by omega) _ i).trans ?_
  split
  · next e =>
    rw [getLsbD_and_lowmask_chunkFlags _ _ _ hmod, getLsbD_chunkOf f k hmod, ← e, Nat.div_add_mod]
    congr 2; exact propext (by omega)
  · next e => rw [h.bits]; congr 2; exact propext (by omega)

/-- READW answers a chunk of the flags that were packed. -/
theorem readw {k : Nat} (h : HoldsFlags f m m s) (hk : k < (m + 63) / 64) :
    ∃ u, exec (.readw (BitVec.ofNat 16 k)) s = .next u ∧ u.rsp = some (Response.okay (chunkOf (f.take m) k)) ∧
      HoldsFlags f m m u := by
  obtain ⟨harg, hlt⟩ := h.chunk_arg hk
  obtain ⟨w, hw⟩ := readWord_eq_some_of_lt_wc hlt h.wc_le
  have hchunk : w = chunkOf (f.take m) k := by
    apply BitVec.eq_of_getLsbD_eq
    intro j hj
    rw [getLsbD_of_readWord hw hj, harg, h.bits, getLsbD_chunkOf _ k hj, flagAt_take]
  subst hchunk
  exact ⟨_, withWord_of_lt hlt hw, rfl, h.congr ⟨rfl, rfl, rfl⟩⟩

/-! The loops. -/

theorem setFlags (h : HoldsFlags f m 0 s) (hb : s.busy = false) :
    ∃ t, Succeeds s (setFlags f m) ((List.range m).map fun _ => 0) t ∧ HoldsFlags f m m t :=
  Succeeds.loop (I := HoldsFlags f m) (fun _ => rfl) (fun _ _ _ => congr) m (fun _ hc _ h => h.set hc) hb h

theorem putChunks (h : HoldsFlags f m 0 s) (hb : s.busy = false) :
    ∃ t, Succeeds s (putChunks f ((m + 63) / 64)) ((List.range ((m + 63) / 64)).map fun _ => 0) t ∧
      HoldsFlags f m m t := by
  have hstart : min (64 * 0) m = 0 := Nat.zero_min m
  have hend : min (64 * ((m + 63) / 64)) m = m := by omega
  obtain ⟨t, hst, ht⟩ := Succeeds.loop (I := fun k => HoldsFlags f m (min (64 * k) m)) (fun _ => rfl)
    (fun _ _ _ => congr) ((m + 63) / 64) (fun _ hk _ h => h.dput hk) hb (by rwa [hstart])
  rw [hend] at ht
  exact ⟨t, hst, ht⟩

theorem readWords (h : HoldsFlags f m m s) (hb : s.busy = false) :
    ∃ t, Succeeds s (readWords ((m + 63) / 64)) ((List.range ((m + 63) / 64)).map (chunkOf (f.take m))) t ∧
      HoldsFlags f m m t :=
  Succeeds.loop (I := fun _ => HoldsFlags f m m) (fun _ => rfl) (fun _ _ _ => congr) _
    (fun _ hk _ h => h.readw hk) hb h

end HoldsFlags

/-! ## Words in the storage: NEW, then WRITEW, then UNPACK.DYN and DGET -/

/-- The storage is allocated for the words `ws`, and the first `c` of them stand in it. -/
structure HoldsWords (ws : List Word) (c : Nat) (s : State) : Prop where
  le : ws.length ≤ 64
  wc : s.wc.toNat = ws.length
  words : ∀ k < c, readWord s k = some (ws.getD k 0)

namespace HoldsWords

variable {ws : List Word} {c : Nat} {s t : State}

theorem congr (h : HoldsWords ws c s) (hsame : t.SameBlock s) : HoldsWords ws c t := by
  obtain ⟨hbf, hwc, _⟩ := hsame
  exact ⟨h.le, by rw [← hwc, h.wc], fun k hk => by rw [← readWord_congr hbf, h.words k hk]⟩

theorem new (hle : ws.length ≤ 64) (s : State) :
    ∃ d u, exec (.new (BitVec.ofNat 16 (64 * ws.length))) s = .next u ∧ u.rsp = some (Response.okay d) ∧
      HoldsWords ws 0 u := by
  have harg : (BitVec.ofNat 16 (64 * ws.length)).toNat = 64 * ws.length := toNat_ofNat_arg (by omega)
  refine ⟨_, _, execNew_of_le (by omega) s, rfl, hle, ?_, nofun⟩
  rw [respond_wc, allocate_wc_toNat (by omega), harg]
  omega

/-- WRITEW puts the next word. -/
theorem writew (h : HoldsWords ws c s) (hc : c < ws.length) :
    ∃ u, exec (.writew (BitVec.ofNat 16 c) (ws.getD c 0)) s = .next u ∧ u.rsp = some (Response.okay 0) ∧
      HoldsWords ws (c + 1) u := by
  have hle := h.le
  have harg : (BitVec.ofNat 16 c).toNat = c := toNat_ofNat_arg (by omega)
  have hlt : (BitVec.ofNat 16 c).toNat < s.wc.toNat := by rw [harg, h.wc]; exact hc
  obtain ⟨w, hw⟩ := readWord_eq_some_of_lt_wc hlt (by rw [h.wc]; exact hle)
  refine ⟨_, withWord_of_lt hlt hw, rfl, hle, h.wc, fun k hk => ?_⟩
  rw [readWord_respond, harg, readWord_writeWord_of_lt s (by omega)]
  split
  · next e => rw [e]
  · next e => exact h.words k (by omega)

theorem unpackDyn (h : HoldsWords ws c s) {n : Arg} {o : Bool} (hfits : n.toNat ≤ 64 * ws.length ∨ o = true) :
    ∃ u, exec (.unpackDyn 4 o n) s = .next u ∧
      u.rsp = some (Response.okay (BitVec.ofNat 64 ((n.toNat + 63) / 64))) ∧ HoldsWords ws c u ∧ u.dn = n :=
  ⟨_, execUnpackDyn_of_fits (by rwa [h.wc]) 4, rfl, ⟨h.le, h.wc, h.words⟩, rfl⟩

/-- DGET answers the word masked to the count; a word that is missing counts as 0. -/
theorem dget (h : HoldsWords ws ws.length s) {k : Nat} (hk : k < 65536) :
    exec (.dget (BitVec.ofNat 16 k)) s = respondOK (ws.getD k 0 &&& lowmask (chunkFlags s.dn.toNat k)) s := by
  have harg : (BitVec.ofNat 16 k).toNat = k := toNat_ofNat_arg hk
  rcases Nat.lt_or_ge k ws.length with hlt | hge
  · have hexec := execDget_of_lt (k := BitVec.ofNat 16 k) (by rwa [harg, h.wc]) (by rw [harg]; exact h.words k hlt)
    rwa [harg] at hexec
  · have hzero : ws.getD k 0 &&& lowmask (chunkFlags s.dn.toNat k) = 0 := by
      rw [List.getD_eq_default ws 0 hge]
      exact BitVec.zero_and
    rw [hzero]
    exact execDget_of_ge (by rwa [harg, h.wc])

/-! The loops. -/

theorem putWords (h : HoldsWords ws 0 s) (hb : s.busy = false) :
    ∃ t, Succeeds s (putWords ws) ((List.range ws.length).map fun _ => 0) t ∧ HoldsWords ws ws.length t :=
  Succeeds.loop (I := HoldsWords ws) (fun _ => rfl) (fun _ _ _ => congr) ws.length (fun _ hc _ h => h.writew hc) hb h

theorem getChunks (h : HoldsWords ws ws.length s) (hb : s.busy = false) {m : Nat} (hm : m ≤ 65536) :
    ∃ t, Succeeds s (getChunks m)
      ((List.range m).map fun k => ws.getD k 0 &&& lowmask (chunkFlags s.dn.toNat k)) t := by
  obtain ⟨t, hst, _⟩ := Succeeds.loop (I := fun _ v => HoldsWords ws ws.length v ∧ v.dn = s.dn) (fun _ => rfl)
    (fun _ _ _ ⟨hv, hdn⟩ hsame => ⟨hv.congr hsame, hsame.dn_eq.trans hdn⟩) m
    (fun k hk v ⟨hv, hdn⟩ =>
      ⟨_, hv.dget (hk.trans_le hm), by rw [hdn]; rfl, hv.congr ⟨rfl, rfl, rfl⟩, hdn⟩) hb ⟨h, rfl⟩
  exact ⟨t, hst⟩

end HoldsWords

end Sys2Proof.Machine
end

section
/-! SUPPORT. What the host procedures of 41_codec.md R112 give, and where an error ends them. -/

namespace Sys2Proof.Machine

/-! ## The dynamic representation -/

/-- pack succeeds with the chunks of the flags that fit. -/
theorem run_packDynamic {f : List Bool} {o : Bool} {s : State} (hb : s.busy = false) (hlen : f.length < 65536)
    (hfits : f.length ≤ 4096 ∨ o = true) :
    ∃ cs ds t, Succeeds s cs ds t ∧ (packDynamic f o).run s =
      (.ok ((List.range ((min f.length 4096 + 63) / 64)).map (chunkOf (f.take 4096))), t) := by
  have harg := toNat_ofNat_arg hlen
  obtain ⟨u, hu, hr, hheld⟩ := HoldsFlags.packDyn f (n := BitVec.ofNat 16 f.length) (o := o) (by rwa [harg]) s
  rw [harg] at hr hheld
  obtain ⟨t₁, hpack, hsame⟩ := Succeeds.of_exec rfl hb hu hr
  have hidle := hpack.busy hb
  obtain ⟨t₂, hput, hheld⟩ := (hheld.congr hsame).putChunks hidle
  obtain ⟨t, hread, -⟩ := hheld.readWords (hput.busy hidle)
  have htake : f.take (min f.length 4096) = f.take 4096 := by rw [Nat.min_comm, ← List.take_eq_take_min]
  refine ⟨_, _, t, hpack.append (hput.append hread), ?_⟩
  rw [packDynamic, withArg_of_lt hlen, packAuto, hpack.run_sendOk, Response.okay_data, toNat_ofNat_words (by omega),
    hput.run_sendAll, hread.run_sendAll, run_done, map_data_okay, htake]

/-- What unpack does once its words stand in the storage. -/
def unpackStored (n : Nat) (o : Bool) : Proc (List Bool) :=
  sendOk (encode (.unpackDyn 4 o (BitVec.ofNat 16 n))) fun r =>
    sendAll (getChunks r.data.toNat) fun rs => .done (flagsOf n (rs.map (·.data)))

/-- Up to 64 words unpack puts in the storage. -/
theorem run_unpackDynamic_stored {ws : List Word} {n : Nat} (o : Bool) {s : State} (hb : s.busy = false)
    (hn : n < 65536) (hle : ws.length ≤ 64) :
    ∃ cs ds t, Succeeds s cs ds t ∧ cs.length = ws.length + 1 ∧ HoldsWords ws ws.length t ∧
      (unpackDynamic ws n o).run s = (unpackStored n o).run t := by
  obtain ⟨d, u, hu, hr, hheld⟩ := HoldsWords.new hle s
  obtain ⟨_, hnew, hsame⟩ := Succeeds.of_exec rfl hb hu hr
  obtain ⟨t, hput, hheld⟩ := (hheld.congr hsame).putWords (hnew.busy hb)
  refine ⟨_, _, t, hnew.append hput, ?_, hheld, ?_⟩
  · rw [List.length_append, putWords, List.length_map, List.length_range, List.length_singleton, Nat.add_comm]
  · rw [unpackDynamic, withArg_of_lt hn, withArg_of_lt (by omega), hnew.run_sendOk, hput.run_sendAll, unpackStored]

/-- unpack succeeds with the flags of the words, as many as asked for. -/
theorem run_unpackDynamic {ws : List Word} {n : Nat} {o : Bool} {s : State} (hb : s.busy = false) (hn : n < 65536)
    (hle : ws.length ≤ 64) (hfits : n ≤ 64 * ws.length ∨ o = true) :
    ∃ cs ds t, Succeeds s cs ds t ∧ (unpackDynamic ws n o).run s = (.ok (flagsOf n ws), t) := by
  have harg := toNat_ofNat_arg hn
  obtain ⟨_, _, t, hstore, -, hheld, hrun⟩ := run_unpackDynamic_stored o hb hn hle
  obtain ⟨u, hu, hr, hheld, hdn⟩ := hheld.unpackDyn (n := BitVec.ofNat 16 n) (o := o) (by rwa [harg])
  rw [harg] at hr
  have hidle := hstore.busy hb
  obtain ⟨t', hcount, hsame⟩ := Succeeds.of_exec rfl hidle hu hr
  obtain ⟨v, hget⟩ := (hheld.congr hsame).getChunks (hcount.busy hidle) (m := (n + 63) / 64) (by omega)
  rw [hsame.dn_eq, hdn, harg] at hget
  refine ⟨_, _, v, hstore.append (hcount.append hget), ?_⟩
  rw [hrun, unpackStored, hcount.run_sendOk, Response.okay_data, toNat_ofNat_words hn, hget.run_sendAll, run_done,
    map_data_okay, flagsOf_masked]

/-! ## A fixed representation -/

/-- An exchange that changes nothing but the response leaves the block and counts one command. -/
theorem run_sendOk_of_answer {α : Type} {i : Instr} {s : State} {d : Word} (hwf : i.wellFormed = true)
    (hb : s.busy = false) (h : exec i s = .next { s with rsp := some (Response.okay d) }) (next : Response → Proc α) :
    ∃ t : State, (sendOk (encode i) next).run s = (next (Response.okay d)).run t ∧ t.SameBlock s ∧
      t.accepted = s.accepted + 1 := by
  obtain ⟨t, hst, hsame⟩ := Succeeds.of_exec hwf hb h rfl
  exact ⟨t, hst.run_sendOk next, hsame, hst.accepted⟩

/-- So does an error, and it ends the procedure. -/
theorem run_sendOk_of_error {α : Type} {i : Instr} {s : State} {st : Status} {a b : Arg} (hwf : i.wellFormed = true)
    (hb : s.busy = false) (h : exec i s = .next { s with rsp := some (Response.error st a b) }) (hst : st ≠ .ok)
    (next : Response → Proc α) :
    ∃ t : State, (sendOk (encode i) next).run s = (.error (.errorResponse (Response.error st a b)), t) ∧
      t.SameBlock s ∧ t.accepted = s.accepted + 1 := by
  rcases run_sendOk next hb ((perform_encode hwf s).trans h) rfl with ⟨hok, _⟩ | ⟨_, e⟩
  · exact (hst hok).elim
  · exact ⟨_, e, ⟨rfl, rfl, rfl⟩, rfl⟩

/-- The integer pack gives: the flags below the width. -/
theorem getLsbD_packFixed (w : Width) (f : List Bool) {j : Nat} (hj : j < widthBits w) :
    ((chunkOf f 0 &&& lowmask (min f.length (widthBits w))).setWidth (widthBits w)).getLsbD j = flagAt f j := by
  have hj64 : j < 64 := hj.trans_le (widthBits_le w)
  rw [BitVec.getLsbD_setWidth, getLsbD_and_lowmask_min _ _ _ hj64, getLsbD_chunkOf f 0 hj64, Nat.mul_zero, Nat.zero_add,
    decide_eq_true hj, Bool.true_and, Bool.and_true]
  rcases Nat.lt_or_ge j f.length with hlt | hge
  · rw [decide_eq_true hlt, Bool.true_and]
  · rw [flagAt_of_ge hge, Bool.and_false]

/-- The flags unpack gives: the bits below the width, then false. -/
theorem getElem?_unpackFixed {w : Width} (p : BitVec (widthBits w)) {n i : Nat} (hi : i < n) :
    ((List.range (min n 64)).map (p.setWidth 64 &&& lowmask (min n (widthBits w))).getLsbD ++
      List.replicate (n - 64) false)[i]? = some (decide (i < widthBits w) && p.getLsbD i) := by
  have hw := widthBits_le w
  rcases Nat.lt_or_ge i 64 with h64 | h64
  · rw [List.getElem?_append_left (by rw [List.length_map, List.length_range]; omega), List.getElem?_map,
      List.getElem?_range (by omega), Option.map_some, getLsbD_and_lowmask_min _ _ _ h64, decide_eq_true hi,
      BitVec.getLsbD_setWidth, decide_eq_true h64, Bool.true_and, Bool.true_and]
  · rw [List.getElem?_append_right (by rw [List.length_map, List.length_range]; omega), List.length_map,
      List.length_range, List.getElem?_replicate, if_pos (by omega), decide_eq_false (by omega), Bool.false_and]

end Sys2Proof.Machine
end

section
/-! PROOFS. The statements of 41_codec.md about sequences of commands and the host procedures of R112. -/

namespace Sys2Proof.Machine

/-- Settles O49: after either sequence the storage holds the first `min(n, 4096)` flags and nothing else. -/
theorem packBySetEqualsPackByChunk : Obligations.PackBySetEqualsPackByChunk := by
  intro f n o s _ hb hlen hfits
  rw [hlen] at hfits ⊢
  obtain ⟨u, hu, hr, hheld⟩ := HoldsFlags.packDyn f hfits s
  obtain ⟨_, hpack, hsame⟩ := Succeeds.of_exec rfl hb hu hr
  have hidle := hpack.busy hb
  obtain ⟨t, hset, ht⟩ := (hheld.congr hsame).setFlags hidle
  obtain ⟨v, hput, hv⟩ := (hheld.congr hsame).putChunks hidle
  have hbits : ∀ i, readBit t i = readBit v i := fun i => by rw [ht.bits, hv.bits]
  exact ⟨_, _, (hpack.append hset).runs, (hpack.append hput).runs, (hpack.append hset).allOk,
    (hpack.append hput).allOk, bf_eq_of_readBit hbits⟩

/-- Settles O50: the chunks of the first 4096 flags are packed, and a chunk's bits are its flags. -/
theorem dynamicRoundTrip : Obligations.DynamicRoundTrip := by
  intro f o o' s _ hb hlen hfits
  have hm : ((List.range ((min f.length 4096 + 63) / 64)).map (chunkOf (f.take 4096))).length =
      (min f.length 4096 + 63) / 64 := by rw [List.length_map, List.length_range]
  obtain ⟨_, _, t, hpack, hrun⟩ := run_packDynamic hb hlen (hfits.imp_right And.left)
  obtain ⟨_, _, u, hunpack, hrun'⟩ := run_unpackDynamic
    (ws := (List.range ((min f.length 4096 + 63) / 64)).map (chunkOf (f.take 4096))) (n := f.length) (o := o')
    (hpack.busy hb) hlen (by rw [hm]; omega) (hfits.imp (fun h => by rw [hm]; omega) And.right)
  refine ⟨_, t, u, hrun, hm, hrun'.trans ?_, (hpack.append hunpack).allOk⟩
  have htake : (f.take 4096).length = min 4096 f.length := List.length_take
  have hrest : f.length - min 4096 f.length = f.length - 4096 := by omega
  rw [flagsOf_chunks (by rw [htake]; omega), map_flagAt_range (by rw [htake]; omega), htake, hrest]

/-- Settles O51: one command that changes nothing but the response, whose bits are those of the flags sent. -/
theorem fixedProceduresGiveTheirResults : Obligations.FixedProceduresGiveTheirResults := by
  refine fun w o s _ hb => ⟨fun f hlen hfits => ?_, fun p n hn hfits => ?_⟩
  · have harg := toNat_ofNat_arg hlen
    obtain ⟨t, hrun, hblock, haccepted⟩ := run_sendOk_of_answer (i := .packFix w o _ (chunkOf f 0)) rfl hb
      (fixedCodec_of_fits (n := BitVec.ofNat 16 f.length) (by rwa [harg]) (chunkOf f 0) s)
      fun r => .done (r.data.setWidth (widthBits w))
    rw [harg] at hrun
    refine ⟨_, t, ?_, fun j hj => getLsbD_packFixed w f hj, hblock, haccepted⟩
    rw [pack, packFixed, withArg_of_lt hlen, hrun]
    rfl
  · have harg := toNat_ofNat_arg hn
    obtain ⟨t, hrun, hblock, haccepted⟩ := run_sendOk_of_answer (i := .unpackFix w o _ (p.setWidth 64)) rfl hb
      (fixedCodec_of_fits (n := BitVec.ofNat 16 n) (by rwa [harg]) (p.setWidth 64) s)
      fun r => .done ((List.range (min n 64)).map r.data.getLsbD ++ List.replicate (n - 64) false)
    rw [harg] at hrun
    refine ⟨_, t, ?_, ?_, fun i hi => getElem?_unpackFixed p hi, hblock, haccepted⟩
    · rw [unpack, unpackFixed, withArg_of_lt hn, hrun]
      rfl
    · rw [List.length_append, List.length_map, List.length_range, List.length_replicate]
      omega

/-- Settles O52: the procedures are built from `sendOk` alone, which ends at an error. -/
theorem hostProceduresEndAtFirstError : Obligations.HostProceduresEndAtFirstError :=
  ⟨fun f width o _ _ _ hs hb h => (endsAtFirstError_pack f width o).newResponses hs hb h,
    fun width p n o _ _ _ hs hb h => (endsAtFirstError_unpack width p n o).newResponses hs hb h,
    fun f width o _ _ _ hs hb h => (endsAtFirstError_pack f width o).newResponses hs hb h,
    fun width p n o _ _ _ hs hb h => (endsAtFirstError_unpack width p n o).newResponses hs hb h⟩

/-- Settles O53: too many flags or words fail the check of the command that is told their number. -/
theorem hostProceduresFail : Obligations.HostProceduresFail := by
  refine ⟨fun w f s _ hb hlen hgt => ?_, fun w p n s _ hb hn hgt => ?_, fun f s _ hb hlen hgt => ?_,
    fun ws n o s _ hb hn hgt hsize => ?_, fun ws n s _ hb hn hle hgt => ?_, fun f width o s hge => ?_,
    fun width p n o s hge => ?_, fun ws n o s hn hge => ?_, fun f o => rfl, fun ws n o => rfl⟩
  · rw [pack, packFixed, withArg_of_lt hlen]
    exact run_sendOk_of_error (i := .packFix w false _ (chunkOf f 0)) rfl hb
      (withCapacity_error_of_gt (by rwa [toNat_ofNat_arg hlen]) rfl) nofun _
  · rw [unpack, unpackFixed, withArg_of_lt hn]
    exact run_sendOk_of_error (i := .unpackFix w false _ (p.setWidth 64)) rfl hb
      (withCapacity_error_of_gt (by rwa [toNat_ofNat_arg hn]) rfl) nofun _
  · rw [pack, packDynamic, withArg_of_lt hlen]
    exact run_sendOk_of_error (i := .packDyn 4 false _) rfl hb
      (withCapacity_error_of_gt (by rwa [toNat_ofNat_arg hlen]) rfl) nofun _
  · rw [unpack, unpackDynamic, withArg_of_lt hn, withArg_of_lt hsize]
    exact run_sendOk_of_error (i := .new _) rfl hb (execNew_of_gt (by rw [toNat_ofNat_arg hsize]; omega) s) nofun _
  · obtain ⟨_, _, u, hstore, hsent, hheld, hrun⟩ := run_unpackDynamic_stored false hb hn hle
    obtain ⟨t, herr, -, haccepted⟩ := run_sendOk_of_error (i := .unpackDyn 4 false _) rfl (hstore.busy hb)
      (withCapacity_error_of_gt (by rwa [toNat_ofNat_arg hn, capacityBits, hheld.wc]) rfl) nofun _
    rw [capacityBits, hheld.wc] at herr
    exact ⟨t, hrun.trans herr, by rw [haccepted, hstore.accepted, hsent]; omega⟩
  · cases width with
    | fixed w => rw [pack, packFixed, withArg_of_ge hge, run_fail]
    | auto => rw [pack, packDynamic, withArg_of_ge hge, run_fail]
    | unrecognised => rw [pack, packDynamic, withArg_of_ge hge, run_fail]
  · cases width with
    | fixed w => rw [unpack, unpackFixed, withArg_of_ge hge, run_fail]
    | auto => rw [unpack, unpackDynamic, withArg_of_ge hge, run_fail]
    | unrecognised => rw [unpack, unpackDynamic, withArg_of_ge hge, run_fail]
  · rw [unpack, unpackDynamic, withArg_of_lt hn, withArg_of_ge hge, run_fail]

end Sys2Proof.Machine
end

section
/-! SUPPORT. The word STAT reads (42_status.md R130), and how a header in no row of the table is answered (R131). -/

namespace Sys2Proof.Machine

/-! ## STAT -/

/-- The word STAT reads, bit by bit: DN from bit 16 on, WC below. -/
theorem getLsbD_statWord (s : State) {j : Nat} (hj : j < 64) :
    (statWord s).getLsbD j = if j < 16 then s.wc.getLsbD j else s.dn.getLsbD (j - 16) := by
  rw [statWord, BitVec.getLsbD_or, BitVec.getLsbD_shiftLeft, BitVec.getLsbD_setWidth, BitVec.getLsbD_setWidth]
  by_cases h : j < 16
  · simp [h, hj]
  · have hwc : s.wc.getLsbD j = false := BitVec.getLsbD_of_ge _ _ (by omega)
    simp [h, hj, hwc, show j - 16 < 64 by omega]

theorem statWord_wc (s : State) : (statWord s).extractLsb' 0 7 = s.wc := by
  apply BitVec.eq_of_getLsbD_eq
  intro j hj
  rw [BitVec.getLsbD_extractLsb', getLsbD_statWord s (by omega), Nat.zero_add, if_pos (by omega)]
  simp [hj]

theorem statWord_dn (s : State) : (statWord s).extractLsb' 16 16 = s.dn := by
  apply BitVec.eq_of_getLsbD_eq
  intro j hj
  rw [BitVec.getLsbD_extractLsb', getLsbD_statWord s (by omega), if_neg (by omega), Nat.add_sub_cancel_left]
  simp [hj]

theorem statWord_above_wc (s : State) : (statWord s).extractLsb' 7 9 = 0 := by
  apply BitVec.eq_of_getLsbD_eq
  intro j hj
  rw [BitVec.getLsbD_extractLsb', getLsbD_statWord s (by omega), if_pos (by omega),
    BitVec.getLsbD_of_ge _ _ (by omega)]
  simp

theorem statWord_above_dn (s : State) : (statWord s).extractLsb' 32 32 = 0 := by
  apply BitVec.eq_of_getLsbD_eq
  intro j hj
  rw [BitVec.getLsbD_extractLsb', getLsbD_statWord s (by omega), if_neg (by omega),
    BitVec.getLsbD_of_ge _ _ (by omega)]
  simp

/-! ## Headers in no row -/

theorem uncovered_iff_illegal (c : Command) :
    (∀ r ∈ tableRows, r.covers c.hdr = false) ↔ ∃ e, decode c = .error e := by
  obtain ⟨_, illegal_iff, _⟩ := headerIsInOneRowOrIllegal c
  exact illegal_iff.symm

theorem decode_set_with_ovf (b : Bool) (i : Arg) (d : Word) :
    decode ⟨header 1 0 true b i, d⟩ = .error .unusedField := by
  simp [decode, decodeSet]

section

variable {c : Command} (h : ∀ r ∈ tableRows, r.covers c.hdr = false)
include h

theorem perform_of_uncovered (s : State) :
    perform c s = .next { s with
      rsp := some (Response.error .illegal (c.hdr.extractLsb' 0 16) (c.hdr.extractLsb' 16 16)) } := by
  obtain ⟨e, he⟩ := (uncovered_iff_illegal c).mp h
  exact perform_of_decode_error he s

/-- The step at which an idle block accepts such a header: busy with the answer, nothing else done. -/
theorem step_send_of_uncovered {s : State} {rest : List HostInput} (hb : s.busy = false)
    (hi : s.inputs = .send c :: rest) :
    step s = .next { s with
      busy := true, wait := 0, accepted := s.accepted + 1, inputs := rest,
      rsp := some (Response.error .illegal (c.hdr.extractLsb' 0 16) (c.hdr.extractLsb' 16 16)) } := by
  rw [step_eq_handshake, handshake_send hi hb, accept, perform_of_uncovered h]

end

end Sys2Proof.Machine
end

section
/-! PROOFS. The statements of 42_status.md: illegal headers and STAT. -/

namespace Sys2Proof.Machine

/-- Settles O9: such a header does not decode, and `raise` writes the response alone; the next step takes it. -/
theorem illegalHeaderIsAnsweredIllegal : Obligations.IllegalHeaderIsAnsweredIllegal := by
  refine ⟨fun c s h => perform_of_uncovered h s, fun s c rest hb hi h => ?_, fun i b => ?_,
    fun wsel ovf n hsel => ?_⟩
  · obtain ⟨_, _, step_take, _⟩ := busyFromAcceptanceToTaking
    exact ⟨_, _, step_send_of_uncovered h hb hi, step_take _ _ _ rfl rfl rfl, .refl s, .refl s, rfl, rfl, rfl⟩
  · exact (uncovered_iff_illegal ⟨header 1 0 true b i, 0⟩).mpr ⟨_, decode_set_with_ovf b i 0⟩
  · have htop : wsel.getLsbD 2 = true := top_of_four_le (Nat.le_of_succ_le hsel)
    exact ⟨⟨_, encode_in_row (.packDyn wsel ovf n) htop⟩, ⟨_, encode_in_row (.unpackDyn wsel ovf n) htop⟩⟩

/-- Settles O25: STAT's row fixes the whole header, and `statWord` gives each register its own field. -/
theorem statReadsBothRegisters : Obligations.StatReadsBothRegisters := by
  refine ⟨fun h d => ⟨fun hd => (encode_hdr_of_decode hd).symm, ?_⟩, fun s =>
    ⟨statWord s, rfl, statWord_wc s, statWord_above_wc s, statWord_dn s, statWord_above_dn s⟩⟩
  rintro rfl
  exact decode_encode_hdr (i := .stat) rfl d

end Sys2Proof.Machine
end

section
/-! SUPPORT. The one status an answer can have besides OK (60_exceptions.md R142, R144), check by check. -/

namespace Sys2Proof.Machine

theorem respondOK_status {d : Word} {s t : State} (h : respondOK d s = .next t) :
    ∃ r, t.rsp = some r ∧ r.status = .ok := by
  cases h; exact ⟨_, rfl, rfl⟩

theorem withWord_status {info : Arg} {k : Nat} {s t : State} {go : Word → Result}
    (hgo : ∀ w, ∃ d u, go w = respondOK d u) (h : withWord info k s go = .next t) :
    ∃ r, t.rsp = some r ∧ (r.status = .ok ∨ r.status = .indexOutOfRange) := by
  rcases withWord_cases info k s go with ⟨_, e⟩ | ⟨_, w, _, e⟩ | ⟨_, _, e⟩
  · cases e.symm.trans h; exact ⟨_, rfl, .inr rfl⟩
  · obtain ⟨d, u, hw⟩ := hgo w
    obtain ⟨r, hr, hok⟩ := respondOK_status (hw.symm.trans (e.symm.trans h))
    exact ⟨r, hr, .inl hok⟩
  · cases e.symm.trans h

theorem withCapacity_status {n : Arg} {cap : Nat} {ovf : Bool} {s t u : State} {d : Word}
    (h : withCapacity n cap ovf s (respondOK d u) = .next t) :
    ∃ r, t.rsp = some r ∧ (r.status = .ok ∨ r.status = .overflow) := by
  rcases withCapacity_cases n cap ovf s (respondOK d u) with ⟨_, _, e⟩ | ⟨_, e⟩
  · cases e.symm.trans h; exact ⟨_, rfl, .inr rfl⟩
  · obtain ⟨r, hr, hok⟩ := respondOK_status (e.symm.trans h)
    exact ⟨r, hr, .inl hok⟩

theorem execNew_status {size : Arg} {s t : State} (h : execNew size s = .next t) :
    ∃ r, t.rsp = some r ∧ (r.status = .ok ∨ r.status = .capacity) := by
  by_cases hsize : size.toNat ≤ 4096
  · obtain ⟨r, hr, hok⟩ := respondOK_status ((execNew_of_le hsize s).symm.trans h)
    exact ⟨r, hr, .inl hok⟩
  · cases (execNew_of_gt (Nat.lt_of_not_le hsize) s).symm.trans h
    exact ⟨_, rfl, .inr rfl⟩

theorem execDget_status {k : Arg} {s t : State} (h : execDget k s = .next t) :
    ∃ r, t.rsp = some r ∧ r.status = .ok := by
  rcases execDget_cases k s with ⟨_, e⟩ | ⟨_, _, e⟩
  · exact respondOK_status (e.symm.trans h)
  · cases e.symm.trans h

end Sys2Proof.Machine
end

section
/-! PROOFS. The statements of 60_exceptions.md: an error writes nothing, one status a command, and the codes. -/

namespace Sys2Proof.Machine

/-- Settles O30: by `exec_next` an answer is a result, or an error that leaves the block; an illegal header is answered by
`raise`. -/
theorem errorsWriteNothing : Obligations.ErrorsWriteNothing := by
  intro c s t r h hr hne
  rcases perform_cases c s with ⟨i, _, e⟩ | ⟨_, _, e⟩
  · obtain ⟨u, _, rfl, _, ⟨_, rfl⟩ | ⟨_, _, _, _, _, rfl⟩⟩ := exec_next (e.symm.trans h)
    · cases hr; exact (hne rfl).elim
    · exact ⟨rfl, rfl, rfl⟩
  · cases e.symm.trans h; exact ⟨rfl, rfl, rfl⟩

/-- Settles O32: an instruction makes one check at most, and the check decides which error it can answer. -/
theorem oneErrorConditionPerCommand : Obligations.OneErrorConditionPerCommand := by
  intro c s t h
  rcases perform_cases c s with ⟨i, hd, e⟩ | ⟨_, hd, e⟩
  · have hi : exec i s = .next t := e.symm.trans h
    rw [hd]
    cases i with
    | new size => exact execNew_status hi
    | set ix b => exact withWord_status (fun _ => ⟨_, _, rfl⟩) hi
    | get ix => exact withWord_status (fun _ => ⟨_, _, rfl⟩) hi
    | readw k => exact withWord_status (fun _ => ⟨_, _, rfl⟩) hi
    | writew k d => exact withWord_status (fun _ => ⟨_, _, rfl⟩) hi
    | packFix w ovf n d => exact withCapacity_status hi
    | packDyn wsel ovf n => exact withCapacity_status hi
    | unpackFix w ovf n p => exact withCapacity_status hi
    | unpackDyn wsel ovf n => exact withCapacity_status hi
    | dput k d => exact withWord_status (fun _ => ⟨_, _, rfl⟩) hi
    | dget k => exact execDget_status hi
    | stat => exact respondOK_status hi
  · rw [hd]
    cases e.symm.trans h
    exact ⟨_, rfl, rfl⟩

/-- Settles O33: the codes as `Status.code` gives them, status by status. -/
theorem statusCodesAreFive : Obligations.StatusCodesAreFive := by
  refine ⟨rfl, rfl, rfl, rfl, rfl, fun st => ?_⟩
  cases st <;> decide

end Sys2Proof.Machine
end

section
/-! SUPPORT. What the handshake of 70_reset_and_hazards.md R174 comes to: at either level the command is performed and its
response taken, at the pins one edge at a time, and over a list of commands the fold of R175. -/

namespace Sys2Proof.Machine

/-! ## The pins -/

theorem outPins_rspValid_iff (s : State) : (outPins false s).rspValid = true ↔ s.busy = true ∧ s.wait = 0 := by
  simp [outPins, rspValid]

theorem outPins_of_idle {s : State} (hb : s.busy = false) : outPins false s = ⟨true, false, none⟩ := by
  simp [outPins, rspValid, hb]

/-- The pins offer a response exactly when the block owes it and no latency is left. -/
theorem outPins_offer_iff (s : State) (r : Response) :
    outPins false s = ⟨false, true, some r⟩ ↔ s.busy = true ∧ s.wait = 0 ∧ s.rsp = some r := by
  constructor
  · intro h
    obtain ⟨hb, hw⟩ := (outPins_rspValid_iff s).mp (congrArg OutPins.rspValid h)
    exact ⟨hb, hw, by simpa [outPins, rspValid, hb, hw] using h⟩
  · rintro ⟨hb, hw, hr⟩
    simp [outPins, rspValid, hb, hw, hr]

/-! ## Clock edges -/

section
variable {p : InPins} {s : State} (hr : p.rst = false) (hb : s.busy = true)
include hr hb

theorem clockEdge_take (hw : s.wait = 0) (hq : p.rspReady = true) : clockEdge p s = .next (takeResponse s) := by
  simp [clockEdge, hr, hb, hw, hq]

theorem clockEdge_hold (hw : s.wait = 0) (hq : p.rspReady = false) : clockEdge p s = .next s := by
  simp [clockEdge, hr, hb, hw, hq]

theorem clockEdge_wait {m : Nat} (hw : s.wait = m + 1) : clockEdge p s = .next { s with wait := m } := by
  simp [clockEdge, hr, hb, hw]

end

/-- `wait_edges` before its end: so many edges without reset use up so much of the latency and do nothing else. -/
theorem clockEdges_of_length_le_wait {mid : List InPins} {s : State} (hb : s.busy = true) (hle : mid.length ≤ s.wait)
    (hmid : ∀ p ∈ mid, p.rst = false) : clockEdges mid s = .next { s with wait := s.wait - mid.length } := by
  induction mid generalizing s with
  | nil => rfl
  | cons p ps ih =>
    obtain ⟨hp, hps⟩ := List.forall_mem_cons.mp hmid
    obtain ⟨m, hm⟩ : ∃ m, s.wait = m + 1 := Nat.exists_eq_succ_of_ne_zero (by rw [List.length_cons] at hle; omega)
    rw [List.length_cons, hm, Nat.add_le_add_iff_right] at hle
    rw [clockEdges, clockEdge_wait hp hb hm, andThen_next, ih (s := { s with wait := m }) hb hle hps, hm,
      List.length_cons, Nat.add_sub_add_right]

/-- The response is offered when just the edges of the latency have passed. -/
theorem rspValid_after_edges {mid : List InPins} {s : State} (hb : s.busy = true) (hle : mid.length ≤ s.wait)
    (hmid : ∀ p ∈ mid, p.rst = false) :
    ∃ u, clockEdges mid s = .next u ∧ ((outPins false u).rspValid = true ↔ mid.length = s.wait) := by
  refine ⟨_, clockEdges_of_length_le_wait hb hle hmid, ?_⟩
  rw [outPins_rspValid_iff, and_iff_right hb, Nat.sub_eq_zero_iff_le]
  exact ⟨hle.antisymm, Eq.ge⟩

/-! ## One command, served -/

/-- The state in which the host has `l` still to do, after `s` accepted the command that answered `u` and the response was
taken. -/
def served (s : State) (l : List HostInput) (u : State) : State :=
  takeResponse (u.setPort ⟨true, 0, s.accepted + 1, s.resets, l, s.taken⟩)

theorem served_setInputs (s : State) (l l' : List HostInput) (u : State) :
    { served s l u with inputs := l' } = served s l' u := by
  cases h : u.rsp <;> simp [served, takeResponse, State.setPort, h]

section
variable {s : State} (hb : s.busy = false)
include hb

/-- Two steps serve a command. -/
theorem runSteps_two_eq_served (c : Command) (rest : List HostInput) :
    runSteps 2 { s with inputs := .send c :: .take :: rest } = mapNext (served s rest) (perform c s) := by
  have hsend : step { s with inputs := .send c :: .take :: rest } = accept c 0 { s with inputs := .take :: rest } :=
    handshake_send (s := { s with inputs := .send c :: .take :: rest }) rfl hb
  have hperform : perform c { s with inputs := .take :: rest } =
      mapNext (State.setPort ⟨s.busy, s.wait, s.accepted, s.resets, .take :: rest, s.taken⟩) (perform c s) :=
    perform_setPort ⟨s.busy, s.wait, s.accepted, s.resets, .take :: rest, s.taken⟩ c s
  rw [runSteps_succ, hsend, accept_eq, hperform]
  cases perform c s with
  | next u => exact (runSteps_succ 0 _).trans (congrArg (andThen · _) (handshake_take rfl))
  | fault e => rfl
  | refused e => rfl

/-- The edges of one handshake serve it too, whatever else the pins show while the latency passes. -/
theorem clockEdges_eq_served {first last : InPins} {mid : List InPins} (hfirst : first.rst = false)
    (hvalid : first.cmdValid = true) (hlen : mid.length = latencyOf first.cmd s) (hmid : ∀ p ∈ mid, p.rst = false)
    (hlast : last.rst = false) (hready : last.rspReady = true) :
    clockEdges (first :: (mid ++ [last])) s = mapNext (served s s.inputs) (perform first.cmd s) := by
  rw [clockEdges, clockEdge_accept hfirst hb hvalid, accept_eq]
  cases perform first.cmd s with
  | next u =>
    rw [mapNext_next, andThen_next, clockEdges_append, wait_edges mid _ rfl hlen.symm hmid, andThen_next, clockEdges,
      clockEdge_take hlast rfl rfl hready]
    rfl
  | fault e => rfl
  | refused e => rfl

end

/-! ## Lists of commands -/

theorem performAll_cons {c : Command} {s u : State} {r : Response} (hp : perform c s = .next u) (hr : u.rsp = some r)
    (cs : List Command) :
    performAll (c :: cs) s = (performAll cs { u with rsp := none }).map fun q => (q.1, r :: q.2) := by
  simp [performAll, hp, hr]

/-- The fold does not read the port's side. -/
theorem performAll_setPort (p : PortSide) (cs : List Command) (s : State) :
    performAll cs (s.setPort p) = (performAll cs s).map fun q => (q.1.setPort p, q.2) := by
  induction cs generalizing s with
  | nil => rfl
  | cons c cs ih =>
    have hperform := perform_setPort p c s
    cases hp : perform c s with
    | next u =>
      obtain ⟨r, hr, _⟩ := perform_next hp
      rw [hp] at hperform
      rw [performAll_cons hperform hr, performAll_cons hp hr, Option.map_map]
      exact (congrArg _ (ih { u with rsp := none })).trans (Option.map_map ..)
    | fault e => simp [performAll, hp, hperform, mapNext]
    | refused e => simp [performAll, hp, hperform, mapNext]

/-- The fold goes on after an exchange as it does from the state the command answered. -/
theorem performAll_afterExchange {cs : List Command} {s u v : State} {r : Response} {rs : List Response}
    (h : performAll cs (afterExchange s u r) = some (v, rs)) :
    ∃ w, performAll cs { u with rsp := none } = some (w, rs) ∧ v.SameBlock w := by
  have hport := performAll_setPort ⟨false, 0, s.accepted + 1, u.resets, [], s.taken ++ [r]⟩ cs { u with rsp := none }
  obtain ⟨⟨w, _⟩, hw, heq⟩ := Option.map_eq_some_iff.mp (hport.symm.trans h)
  cases heq
  exact ⟨w, hw, rfl, rfl, rfl⟩

/-- A run's first command leaves the rest to run from the state after its exchange. -/
theorem runs_cons {c : Command} {cs : List Command} {s t u : State} {r : Response} (hb : s.busy = false)
    (hp : perform c s = .next u) (hr : u.rsp = some r) (h : Runs cs (afterExchange s u r) t) : Runs (c :: cs) s t := by
  show runSteps (2 * (cs.length + 1)) { s with inputs := .send c :: .take :: script cs } = _
  rw [Nat.mul_succ, Nat.add_comm, runSteps_add, runSteps_two_of_idle hb hp hr, andThen_next]
  exact h

theorem State.SameBlock.trans {s t u : State} (h : s.SameBlock t) (h' : t.SameBlock u) : s.SameBlock u := by
  obtain ⟨hbf, hwc, hdn⟩ := h
  obtain ⟨hbf', hwc', hdn'⟩ := h'
  exact ⟨hbf'.trans hbf, hwc'.trans hwc, hdn'.trans hdn⟩

/-- An idle block runs any commands as the fold does, and one more response is taken for each. -/
theorem runs_performAll {cs : List Command} {s : State} (hwc : s.wc.toNat ≤ 64) (hb : s.busy = false) :
    ∃ t u rs, Runs cs s t ∧ performAll cs s = some (u, rs) ∧ rs.length = cs.length ∧ t.taken = s.taken ++ rs ∧
      t.SameBlock u ∧ t.busy = false ∧ t.inputs = [] := by
  induction cs generalizing s with
  | nil => exact ⟨_, s, [], rfl, rfl, rfl, (List.append_nil _).symm, ⟨rfl, rfl, rfl⟩, hb, rfl⟩
  | cons c cs ih =>
    obtain ⟨u, hp⟩ := perform_completes hwc c
    obtain ⟨r, hr, _⟩ := perform_next hp
    obtain ⟨t, v, rs, hrun, hfold, hlen, htaken, hsame, hidle, hin⟩ :=
      ih (s := afterExchange s u r) (afterExchange_inv r (perform_wc_le hwc hp)).wc_le rfl
    obtain ⟨w, hfold', hsame'⟩ := performAll_afterExchange hfold
    refine ⟨t, w, r :: rs, runs_cons hb hp hr hrun, ?_, congrArg (· + 1) hlen, ?_, hsame.trans hsame', hidle, hin⟩
    · rw [performAll_cons hp hr, hfold']; rfl
    · rw [htaken, afterExchange_taken, List.append_assoc, List.singleton_append]

end Sys2Proof.Machine
end

section
/-! PROOFS. The statements of 70_reset_and_hazards.md: runs and the fold, the clock and the steps, offered responses, latency
and reset. -/

namespace Sys2Proof.Machine

/-- Settles O45: by induction on the commands, since the fold does not read the port's side, which is all that an exchange
changes besides. -/
theorem responsesAreFoldOfCommands : Obligations.ResponsesAreFoldOfCommands := by
  intro cs s hs hb
  obtain ⟨t, u, rs, hrun, hfold, hlen, htaken, hrest⟩ := runs_performAll (cs := cs) hs.wc_le hb
  exact ⟨t, u, rs, hrun, hfold, hlen, by rw [newResponses, htaken, List.drop_left], hrest⟩

/-- Settles O46: both sides perform the command, accept it and take its response; they differ in what the host has left
to do. -/
theorem clockEdgesRefineSteps : Obligations.ClockEdgesRefineSteps := by
  intro s first last mid hb hfirst hvalid hlen hmid hlast hready
  rw [clockEdges_eq_served hb hfirst hvalid hlen hmid hlast hready, runSteps_two_eq_served hb]
  cases perform first.cmd s with
  | next u => exact congrArg _ (served_setInputs s [] s.inputs u).symm
  | fault e => rfl
  | refused e => rfl

/-- Settles O48: of what an edge can do, the pins of an offered response leave holding it and taking it. -/
theorem offeredResponseIsHeldUntilTaken : Obligations.OfferedResponseIsHeldUntilTaken := by
  refine ⟨fun p s hr hq hvalid => ?_, fun p s r hr hq hpins => ?_, fun s => outPins_of_idle (resetBlock_busy s)⟩
  · obtain ⟨hb, hw⟩ := (outPins_rspValid_iff s).mp hvalid
    exact clockEdge_hold hr hb hw hq
  · obtain ⟨hb, hw, hrsp⟩ := (outPins_offer_iff s r).mp hpins
    exact ⟨_, (clockEdge_take hr hb hw hq).trans (congrArg _ (takeResponse_of_busy hb hrsp)), outPins_of_idle rfl, rfl⟩

/-- Settles O54: acceptance sets the wait to the command's latency, each edge takes one off, and the response is offered
at 0. -/
theorem latencyIsThatOfTheCommand : Obligations.LatencyIsThatOfTheCommand := by
  intro s first hs hb hr hv
  obtain ⟨u, hu⟩ := perform_completes hs.wc_le first.cmd
  have haccept := clockEdge_accept hr hb hv
  rw [accept_eq, hu, mapNext_next] at haccept
  exact ⟨_, haccept, rfl, fun _ hle hmid => rspValid_after_edges rfl hle hmid⟩

/-- Settles O11: `resetBlock` withdraws the response and keeps what was taken, and no word lies below its `WC` = 0. -/
theorem resetAbandonsCommandInProgress : Obligations.ResetAbandonsCommandInProgress := by
  refine ⟨fun p s hr => ?_, fun s => ⟨rfl, rfl⟩, fun s s' hin htaken => ?_⟩
  · exact ⟨_, clockEdge_reset hr s, resetBlock_rsp s, resetBlock_busy s, resetBlock_taken s, resetBlock_accepted s⟩
  · exact ⟨rfl, rfl, rfl, rfl, hin, htaken, fun k hk => absurd hk (Nat.not_lt_zero k)⟩

end Sys2Proof.Machine
end
